-- ==== Sys2Proof/Word.lean ====
section
/-! DEFINITION. The word types of the core: a byte (00 R12), a 40-bit command word (30 R93), a 48-bit response word (30 R95). -/

namespace Sys2Proof

/-- An unsigned 8-bit value, bit 7 the most significant (00 R12). -/
abbrev Byte := BitVec 8

/-- One request to the core (30 R93): `op` in bits 39:32, then the operand bytes `a`, `b`, `c`, `d`. -/
abbrev CommandWord := BitVec 40

/-- One response of the core (30 R95): five flags, `cond`, then `d0` to `d4`. -/
abbrev ResponseWord := BitVec 48

end Sys2Proof
end

