-- ==== Sys2Proof/Syntax.lean ====
section
/-! DEFINITION. The operations of the core as syntax (30 R101, R102), and the spec's source notation (30 R107 to R110). -/

namespace Sys2Proof

/-- The fifteen operations of 30 R101, one constructor per row of the opcode table.
Operand bytes are used as they stand (30 R94) and every byte is legal (30 R91), so every term is well formed. -/
inductive Instr where
  | rxbInit
  | rxbPut (a : Byte)
  | rxbGet
  | txbInit
  | txbPut (a : Byte)
  | txbGet
  | faInit
  | faStep
  | tryGetFrame
  | feEncode (a b c d : Byte)
  | fePutFrame (a b c d : Byte)
  | tpInit
  | tpFire
  | tpArm
  | reset
deriving DecidableEq, Repr

/-- The operand forms of 30 R94: no operand, one byte, four bytes. -/
inductive Form where
  | formN
  | formB
  | formQ
deriving DecidableEq, Repr

/-- The form of each operation (30 R101). -/
def Instr.form : Instr → Form
  | .rxbInit => .formN
  | .rxbPut _ => .formB
  | .rxbGet => .formN
  | .txbInit => .formN
  | .txbPut _ => .formB
  | .txbGet => .formN
  | .faInit => .formN
  | .faStep => .formN
  | .tryGetFrame => .formN
  | .feEncode _ _ _ _ => .formQ
  | .fePutFrame _ _ _ _ => .formQ
  | .tpInit => .formN
  | .tpFire => .formN
  | .tpArm => .formN
  | .reset => .formN

/-- The agents that issue operations (60 R218): the polling context, the receive interrupt, the timer interrupt. -/
inductive Agent where
  | poll
  | rxi
  | tmr
deriving DecidableEq, Repr

/-- The words a source line may begin its operation with (30 R101, R108 to R110). -/
inductive Mnemonic where
  | rxbInit
  | rxbPut
  | rxbGet
  | txbInit
  | txbPut
  | txbGet
  | faInit
  | faStep
  | tryGetFrame
  | feEncode
  | fePutFrame
  | tpInit
  | tpFire
  | tpArm
  | reset
  | rxEvent
  | send
  | drain
deriving DecidableEq, Repr

/-- One source line that is not blank (30 R107): an optional agent, a mnemonic, operands as the numbers written. -/
structure AsmLine where
  agent : Option Agent
  mnemonic : Mnemonic
  operands : List Nat
deriving DecidableEq, Repr

end Sys2Proof
end

