-- ==== Sys2Proof/Decode.lean ====
section
/-! DEFINITION. Command words to operations and back (30 R93, R94, R101, R103 to R105). -/

namespace Sys2Proof

/-- Why a command word stands for no operation: its `op` is one of the 241 reserved codes (30 R104). -/
inductive DecodeError where
  | reservedOp (op : Byte)
deriving DecidableEq, Repr

/-- `CW[39:32]` (30 R93). -/
def opField (w : CommandWord) : Byte := w.extractLsb' 32 8

/-- `CW[31:24]` (30 R93). -/
def aField (w : CommandWord) : Byte := w.extractLsb' 24 8

/-- `CW[23:16]` (30 R93). -/
def bField (w : CommandWord) : Byte := w.extractLsb' 16 8

/-- `CW[15:8]` (30 R93). -/
def cField (w : CommandWord) : Byte := w.extractLsb' 8 8

/-- `CW[7:0]` (30 R93). -/
def dField (w : CommandWord) : Byte := w.extractLsb' 0 8

/-- Decoding (30 R103): `op` alone selects the row; operands per its form (30 R94); bytes the form does not use
are ignored (30 R105); a reserved `op` is rejected by name (30 R104). -/
def decode (w : CommandWord) : Except DecodeError Instr :=
  match opField w with
  | 0x00#8 => .ok .rxbInit
  | 0x01#8 => .ok (.rxbPut (aField w))
  | 0x02#8 => .ok .rxbGet
  | 0x10#8 => .ok .txbInit
  | 0x11#8 => .ok (.txbPut (aField w))
  | 0x12#8 => .ok .txbGet
  | 0x20#8 => .ok .faInit
  | 0x21#8 => .ok .faStep
  | 0x22#8 => .ok .tryGetFrame
  | 0x30#8 => .ok (.feEncode (aField w) (bField w) (cField w) (dField w))
  | 0x31#8 => .ok (.fePutFrame (aField w) (bField w) (cField w) (dField w))
  | 0x40#8 => .ok .tpInit
  | 0x41#8 => .ok .tpFire
  | 0x42#8 => .ok .tpArm
  | 0xFF#8 => .ok .reset
  | op => .error (.reservedOp op)

/-- The instruction the decoder reads from a table word: a command word is one 40-bit number whose bits the table
numbers as 30 R93 does (log 16). Bits at or above `nbits` are 0; a word with a bit above 39 is no command word. -/
def decodeTableWord (nbits w : Nat) : Option Instr :=
  if w % 2 ^ nbits < 2 ^ 40 then
    match decode (BitVec.ofNat 40 (w % 2 ^ nbits)) with
    | .ok i => some i
    | .error _ => none
  else none

/-- A command word from its five bytes (30 R93). -/
def packCommand (op a b c d : Byte) : CommandWord := op ++ a ++ b ++ c ++ d

/-- The canonical command word of an operation (30 R101, R105): unused operand bytes zero. -/
def encode : Instr → CommandWord
  | .rxbInit => packCommand 0x00 0 0 0 0
  | .rxbPut a => packCommand 0x01 a 0 0 0
  | .rxbGet => packCommand 0x02 0 0 0 0
  | .txbInit => packCommand 0x10 0 0 0 0
  | .txbPut a => packCommand 0x11 a 0 0 0
  | .txbGet => packCommand 0x12 0 0 0 0
  | .faInit => packCommand 0x20 0 0 0 0
  | .faStep => packCommand 0x21 0 0 0 0
  | .tryGetFrame => packCommand 0x22 0 0 0 0
  | .feEncode a b c d => packCommand 0x30 a b c d
  | .fePutFrame a b c d => packCommand 0x31 a b c d
  | .tpInit => packCommand 0x40 0 0 0 0
  | .tpFire => packCommand 0x41 0 0 0 0
  | .tpArm => packCommand 0x42 0 0 0 0
  | .reset => packCommand 0xFF 0 0 0 0

end Sys2Proof
end

