-- ==== Sys2Proof/Config.lean ====
section
/-! DEFINITION. What a realisation fixes (00 R7 to R11, 10 R34) and the free values of the model (log 2, 3, 6). -/

namespace Sys2Proof

/-- The constants of a run (10 R34, table of open parameters in 92_eei_decisions.md).
`BYTE_PERIOD` is derived from them (`Machine.bytePeriod`). No operation writes them. -/
structure Params where
  /-- `C`, the capacity of both ring buffers, in bytes (00 R7). -/
  capacity : Nat
  /-- `BAUD_RATE`, bits per second (00 R8). -/
  baudRate : Nat
  /-- `BUS_CLOCK`, Hz (00 R8). -/
  busClock : Nat
  /-- `ARM_DELAY`, the delay before the first fire after arming, in time units (44 R178, D15: OPEN). -/
  armDelay : Nat
deriving DecidableEq, Repr

/-- The bytes of cells to which the spec gives no value (10 R43, D9): the `n`-th one drawn (log 3). -/
opaque Config.freeByte : Nat → Byte

/-- Which of several agents in mid-operation goes on when nothing from outside says so (20 R75, R76; log 2). -/
opaque Config.freeTurn : Nat → Nat

/-- `BAUD_RATE` of the reset state, less one: any legal rate, since 0 is not one (00 R8; log 6). -/
opaque Config.baudRateLessOne : Nat

/-- `BUS_CLOCK` of the reset state (00 R8; log 6). -/
opaque Config.busClock : Nat

/-- `ARM_DELAY` of the reset state (44 R178; log 6). -/
opaque Config.armDelay : Nat

/-- The configuration of the reset state: the spec's default capacity 256 (00 R7), the rest open (log 6). -/
def Params.default : Params :=
  { capacity := 256
    baudRate := Config.baudRateLessOne + 1
    busClock := Config.busClock
    armDelay := Config.armDelay }

end Sys2Proof
end

