-- ==== Sys2Proof/Machine/State.lean ====
section
/-! DEFINITION. Everything the spec gives the machine, as plain data (10 R20 to R43), the inputs and outputs around it
(10 R38, R44, 60 R222 to R225), and the reset state (10 R43). -/

namespace Sys2Proof.Machine

/-- Why the machine stops. The core itself never does (60 R205); both are safe and neither is reached from a state
that meets `State.Inv`. -/
inductive Fault where
  /-- Raised by `memRead` for a cell no `PUT` has written, which holds no value (10 R43; log 4). Safe. -/
  | unwrittenCell
  /-- Raised by `memRead` and `memWrite` for an index at or above `C`: no such cell (20 R60; log 5). Safe. -/
  | cellOutOfRange
deriving DecidableEq, Repr

/-- Why a step has no meaning. -/
inductive Refusal where
  /-- An operation without a meaning yet; no arm of `exec` uses it. Safe. -/
  | notModelled (mnemonic : String)
  /-- Raised by `step` when `C = 0` or `BAUD_RATE = 0`, which the model refuses (00 R7, R8, U10, U18; log 7). Safe. -/
  | illegalConfiguration
deriving DecidableEq, Repr

/-- A ring store: the cells that hold a value, by index, strictly rising; a cell not listed holds none (log 4). -/
abbrev Memory := List Host.Cell

/-- One ring buffer (10 R21, R22, R25). -/
structure Ring where
  /-- `X.start`, the read pointer: the index of the oldest stored byte. -/
  start : Nat
  /-- `X.end`, the write pointer: the index the next `PUT` writes. -/
  endp : Nat
  /-- `X.count`, the number of bytes stored and not yet read. -/
  count : Nat
  /-- `X.mem`, the store. -/
  mem : Memory
deriving DecidableEq, Repr

/-- The two instances (10 R20). -/
inductive RingId where
  | rx
  | tx
deriving DecidableEq, Repr

/-- The automaton states of the FrameAssembler, in storage order 0 to 4 (10 R29). -/
inductive FaState where
  | awaitCommand
  | awaitParam1
  | awaitParam2
  | awaitParam3
  | awaitChecksum
deriving DecidableEq, Repr

/-- Five bytes in wire order (10 R26, 20 R62): the window registers `W[0]` to `W[4]`, and the bytes of a wire frame (30 R90). -/
structure Frame5 where
  command : Byte
  param1 : Byte
  param2 : Byte
  param3 : Byte
  checksum : Byte
deriving DecidableEq, Repr

/-- The FrameAssembler: its automaton state and its window (10 R26, R29). -/
structure Assembler where
  state : FaState
  window : Frame5
deriving DecidableEq, Repr

/-- The condition codes (60 R200). Codes 6 and 7 are never produced (30 R106), so they have no constructor. -/
inductive Cond where
  | none
  | bufferFull
  | checksumMismatch
  | bufferEmpty
  | illegalOp
  | pacerBusy
deriving DecidableEq, Repr

/-- A response by its fields (30 R95); a field a rule does not set is 0. -/
structure Response where
  ok : Bool := false
  valid : Bool := false
  consumed : Bool := false
  txb : Bool := false
  sched : Bool := false
  cond : Cond := .none
  d0 : Byte := 0
  d1 : Byte := 0
  d2 : Byte := 0
  d3 : Byte := 0
  d4 : Byte := 0
deriving DecidableEq, Repr

/-- What leaves the core: the events of 00 R17 and each operation's response (10 R44). -/
inductive Output where
  /-- `TX(b)`: byte `b` to the ByteTransport (60 R223). -/
  | tx (b : Byte)
  /-- `SCHED(d)`: a timer event asked for after `d` time units (60 R224). -/
  | sched (d : Nat)
  /-- `FRAME(c, p1, p2, p3)`: a validated frame to the command layer (42 R142). -/
  | frame (c p1 p2 p3 : Byte)
  /-- The response of an operation, to the agent that issued it (00 R15). -/
  | response (agent : Agent) (r : Response)
deriving DecidableEq, Repr

/-- What the outside does (10 R44, 60 R206 to R208): each input falls between two primitives (20 R71). -/
inductive Input where
  /-- Agent `a` presents a command word (30 R93); any agent may present any (60 R219). -/
  | request (a : Agent) (w : CommandWord)
  /-- A receive event: `try_receive_byte()` answers a byte or none (60 R207, R222; 30 R108 `RX_EVENT`). -/
  | rxEvent (b : Option Byte)
  /-- The timer service delivers the `k`-th of its outstanding events to `TMR` (44 R181). -/
  | timerEvent (k : Nat)
  /-- Agent `a` has the next turn; it goes on with its multi-step operation (20 R76). -/
  | resume (a : Agent)
  /-- The reset input of the block (70 R240). -/
  | resetLine
  /-- The pseudo-operation `SEND` (30 R109) by agent `a`. -/
  | send (a : Agent) (c p1 p2 p3 : Byte)
  /-- The pseudo-operation `DRAIN` (30 R110). -/
  | drain
deriving DecidableEq, Repr

/-- What the outside does once the listed inputs are used up (10 R44: it goes on, and the core does not determine how; log 20). -/
inductive Later where
  /-- Nothing more: finitely many inputs in all. -/
  | silent
  /-- The listed inputs again and again, for ever; with none listed, nothing more. -/
  | again (is : List Input)
  /-- An arbitrary sequence without end: each input, or none at this step, is a free value. -/
  | free
deriving DecidableEq, Repr

/-- What an agent still has to do of an operation of several primitives (20 R76). The requester holds it, not the core. -/
inductive Task where
  /-- `TRY_GET_FRAME`, about to do its next `FA_STEP` (42 R146). -/
  | tryGetFrame
  /-- `FE_PUT_FRAME` past its reservation test, about to store byte `i` of `e` (43 R161); `thenArm` inside a `SEND`. -/
  | putFrame (e : Frame5) (i : Fin 5) (thenArm : Bool)
  /-- `SEND` with its frame stored, about to issue `TP_ARM` (30 R109). -/
  | arm
  /-- `DRAIN`, about to do its next `TP_FIRE` (30 R110). -/
  | drain
deriving DecidableEq, Repr

end Sys2Proof.Machine

namespace Sys2Proof

/-- What an outside that goes on without end does next, the `n`-th one drawn: an input, or nothing at this step (10 R44; log 20). -/
opaque Config.freeInput : Nat → Option Machine.Input

end Sys2Proof

namespace Sys2Proof.Machine

/-- The machine: the core's state, the constants of its run, and the inputs and outputs around it. -/
structure State where
  /-- The constants of the run (10 R34). -/
  params : Params
  /-- The receive buffer (10 R20). -/
  rx : Ring
  /-- The transmit buffer (10 R20). -/
  tx : Ring
  /-- The FrameAssembler (10 R20). -/
  fa : Assembler
  /-- `tp.armed` (10 R39). -/
  armed : Bool
  /-- The durations of the timer service's outstanding events, in the order asked for (10 R38). -/
  outstanding : List Nat
  /-- What `POLL` still has to do (log 1). -/
  pollTask : Option Task
  /-- What `RXI` still has to do (log 1). -/
  rxiTask : Option Task
  /-- What `TMR` still has to do (log 1). -/
  tmrTask : Option Task
  /-- Whose primitive is being served: the agent the response goes to (log 12). -/
  serving : Agent
  /-- What the outside does next, oldest first (10 R44; log 2). -/
  inputs : List Input
  /-- What the outside does once `inputs` is used up (10 R44; log 20). -/
  later : Later
  /-- What has left the core, oldest first (10 R44; log 9). -/
  trace : List Output
  /-- How many free values have been drawn (log 2, 3, 20). -/
  freeCount : Nat
deriving DecidableEq, Repr

/-- A window to which the spec gives no value (10 R43): five free bytes, drawn from the `n`-th on (log 3). -/
def freeWindow (n : Nat) : Frame5 :=
  { command := Config.freeByte n
    param1 := Config.freeByte (n + 1)
    param2 := Config.freeByte (n + 2)
    param3 := Config.freeByte (n + 3)
    checksum := Config.freeByte (n + 4) }

/-- An initialised ring buffer whose store has not been written (10 R43). -/
def Ring.empty : Ring := { start := 0, endp := 0, count := 0, mem := [] }

/-- The state after `RESET` under configuration `p` (10 R43), with nothing outstanding in the timer service (70 R242)
and nothing asked of the core yet (70 R243; log 18). -/
def State.init (p : Params) : State :=
  { params := p
    rx := Ring.empty
    tx := Ring.empty
    fa := { state := .awaitCommand, window := freeWindow 0 }
    armed := false
    outstanding := []
    pollTask := none
    rxiTask := none
    tmrTask := none
    serving := .poll
    inputs := []
    later := .silent
    trace := []
    freeCount := 5 }

/-- The machine right after reset (10 R43), in the default configuration (log 6). -/
def State.reset : State := State.init Params.default

end Sys2Proof.Machine
end

