-- ==== Sys2Proof/Machine/Operands.lean ====
section
/-! DEFINITION. Computed values (30 E2): the checksum and the wire frame (30 R90, R97 to R99), the period of the pacer (00 R9),
the numbers of conditions and states (60 R200, 10 R29), the packed response word (30 R95). -/

namespace Sys2Proof.Machine

/-- The checksum function (30 R97), used by the encoder and by the assembler. -/
def cks (c p1 p2 p3 : Byte) : Byte := c ^^^ p1 ^^^ p2 ^^^ p3

/-- `encode` (30 R98): the five wire bytes of a frame. -/
def encodeFrame (c p1 p2 p3 : Byte) : Frame5 :=
  { command := c, param1 := p1, param2 := p2, param3 := p3, checksum := cks c p1 p2 p3 }

/-- `decode` (30 R99): the payload of five bytes that are a valid frame. -/
def decodeFrame : Frame5 → Option (Byte × Byte × Byte × Byte)
  | { command := b0, param1 := b1, param2 := b2, param3 := b3, checksum := b4 } =>
    if b4 = cks b0 b1 b2 b3 then some (b0, b1, b2, b3) else none

/-- `e[i]`: byte `i` of a frame in wire order (30 R90). -/
def frameByte (f : Frame5) (i : Fin 5) : Byte :=
  match i with
  | 0 => f.command
  | 1 => f.param1
  | 2 => f.param2
  | 3 => f.param3
  | 4 => f.checksum

/-- The bytes of a frame in wire order (20 R62). -/
def wireBytes (f : Frame5) : List Byte := [f.command, f.param1, f.param2, f.param3, f.checksum]

/-- A frame as a 40-bit string, byte 0 in the most significant position (30 R90). -/
def frameWord (f : Frame5) : BitVec 40 := f.command ++ f.param1 ++ f.param2 ++ f.param3 ++ f.checksum

/-- `BYTE_PERIOD = floor((10 * BUS_CLOCK) / BAUD_RATE)` (00 R9, D14). -/
def bytePeriod (p : Params) : Nat := 10 * p.busClock / p.baudRate

/-- The number of a condition (60 R200). -/
def condCode : Cond → BitVec 3
  | .none => 0
  | .bufferFull => 1
  | .checksumMismatch => 2
  | .bufferEmpty => 3
  | .illegalOp => 4
  | .pacerBusy => 5

/-- The storage encoding of `fa.state` (10 R29, D8). -/
def faStateCode : FaState → BitVec 3
  | .awaitCommand => 0
  | .awaitParam1 => 1
  | .awaitParam2 => 2
  | .awaitParam3 => 3
  | .awaitChecksum => 4

/-- Bits 47 to 40 of the response word (30 R95): `ok`, `valid`, `consumed`, `txb`, `sched`, `cond`, from the top down. -/
def responseFlags (r : Response) : Byte :=
  BitVec.ofBool r.ok ++ BitVec.ofBool r.valid ++ BitVec.ofBool r.consumed ++ BitVec.ofBool r.txb
    ++ BitVec.ofBool r.sched ++ condCode r.cond

/-- The response word (30 R95): the flags and the condition, then `d0` to `d4`. -/
def responseWord (r : Response) : ResponseWord := responseFlags r ++ (r.d0 ++ r.d1 ++ r.d2 ++ r.d3 ++ r.d4)

end Sys2Proof.Machine
end

