-- ==== Sys2Proof/Machine/Flags.lean ====
section
/-! DEFINITION. The status flags (10 R31, R32), functions of the state and stored nowhere, and what any agent can observe
without an operation (10 R37). -/

namespace Sys2Proof.Machine

/-- `X.empty` (10 R31). -/
def Ring.isEmpty (r : Ring) : Bool := r.count == 0

/-- `X.full` (10 R31). -/
def Ring.isFull (C : Nat) (r : Ring) : Bool := r.count == C

/-- `tp.idle` (10 R32). -/
def State.idle (s : State) : Bool := !s.armed

/-- The observable status outputs (10 R37, D26). -/
structure Status where
  rxCount : Nat
  txCount : Nat
  rxEmpty : Bool
  rxFull : Bool
  txEmpty : Bool
  txFull : Bool
  tpIdle : Bool
deriving DecidableEq, Repr

/-- The status an agent observes between two primitives (10 R37); it has no side effect (20 R67). -/
def State.status (s : State) : Status :=
  { rxCount := s.rx.count
    txCount := s.tx.count
    rxEmpty := s.rx.isEmpty
    rxFull := s.rx.isFull s.params.capacity
    txEmpty := s.tx.isEmpty
    txFull := s.tx.isFull s.params.capacity
    tpIdle := s.idle }

end Sys2Proof.Machine
end

