-- ==== Sys2Proof/Machine/Ops.lean ====
section
/-! DEFINITION. The operations every meaning is built from: ring stores (00 R14), ring buffers (41 R120 to R122), output events
(00 R17), responses (00 R15), conditions (00 R16: `raise`), and the agents' unfinished operations (20 R76). -/

namespace Sys2Proof.Machine

/-! ### Ring stores -/

/-- The value of cell `a`, if it holds one (log 4). -/
def Memory.read : Memory → Nat → Option Byte
  | [], _ => none
  | (k, v) :: m, a => if k = a then some v else Memory.read m a

/-- Cell `a` set to `v`, the list kept in rising order. -/
def Memory.write : Memory → Nat → Byte → Memory
  | [], a, v => [(a, v)]
  | (k, w) :: m, a, v =>
    if a < k then (a, v) :: (k, w) :: m
    else if a = k then (a, v) :: m
    else (k, w) :: Memory.write m a v

/-- The canonical form: indices strictly rising. A cell without a value is not listed, so no entry equals it. -/
abbrev Memory.Wf (m : Memory) : Prop := (m.map Prod.fst).Pairwise (· < ·)

/-- `MemRead(X, a, 1)` (00 R14): a cell below `C` that has been written; otherwise a fault (log 4, 5). -/
def memRead (C : Nat) (m : Memory) (a : Nat) : Except Fault Byte :=
  if a < C then
    match Memory.read m a with
    | some v => .ok v
    | none => .error .unwrittenCell
  else .error .cellOutOfRange

/-- `MemWrite(X, a, 1, v)` (00 R14): a cell below `C`; otherwise a fault (log 5). -/
def memWrite (C : Nat) (m : Memory) (a : Nat) (v : Byte) : Except Fault Memory :=
  if a < C then .ok (Memory.write m a v) else .error .cellOutOfRange

/-! ### Ring buffers -/

/-- `init()` (41 R120): the three registers to 0, the store as it was. -/
def Ring.clear (r : Ring) : Ring := { r with start := 0, endp := 0, count := 0 }

/-- `put(byte)` (41 R121): `none` when full, with nothing changed. -/
def Ring.put (C : Nat) (r : Ring) (a : Byte) : Except Fault (Option Ring) :=
  if r.isFull C then .ok none
  else
    match memWrite C r.mem r.endp a with
    | .error f => .error f
    | .ok m => .ok (some { r with mem := m, endp := (r.endp + 1) % C, count := r.count + 1 })

/-- `get()` (41 R122): `none` when empty, with nothing changed; the cell read is not cleared (10 R40). -/
def Ring.get (C : Nat) (r : Ring) : Except Fault (Option (Byte × Ring)) :=
  if r.isEmpty then .ok none
  else
    match memRead C r.mem r.start with
    | .error f => .error f
    | .ok v => .ok (some (v, { r with start := (r.start + 1) % C, count := r.count - 1 }))

/-- `contents(X)` (10 R24): the stored bytes, oldest first. -/
def Ring.contents (C : Nat) (r : Ring) : List Byte :=
  (List.range r.count).filterMap fun i => Memory.read r.mem ((r.start + i) % C)

/-- One of the two instances. -/
def State.ring (s : State) : RingId → Ring
  | .rx => s.rx
  | .tx => s.tx

/-- One of the two instances replaced; they share nothing (20 R70). -/
def State.setRing (s : State) (x : RingId) (r : Ring) : State :=
  match x with
  | .rx => { s with rx := r }
  | .tx => { s with tx := r }

/-! ### Outputs and responses -/

/-- An output appended to the trace (10 R44). -/
def State.emit (s : State) (o : Output) : State := { s with trace := s.trace ++ [o] }

/-- `emit SCHED(d)` (00 R17): one more outstanding event in the timer service (44 R181). -/
def State.schedule (s : State) (d : Nat) : State :=
  { s with trace := s.trace ++ [.sched d], outstanding := s.outstanding ++ [d] }

/-- The response of an operation, to the agent being served (00 R15). -/
def State.respond (s : State) (r : Response) : State :=
  { s with trace := s.trace ++ [.response s.serving r] }

/-- What a primitive does: the state it leaves and its response (00 R15), or a fault. -/
abbrev Result := Except Fault (State × Response)

/-- `raise` (00 R16, 60 R214): the condition in the response with `ok = 0`; nothing saved, no control transferred, no state
changed beyond what the primitive has already done. -/
def raise (c : Cond) (s : State) : Result := .ok (s, { ok := false, cond := c })

/-- An operation of one primitive, done: its response delivered. -/
def complete : Result → Host.Outcome State Fault Refusal
  | .error f => .fault f
  | .ok (s, r) => .next (s.respond r)

/-! ### Primitives on a ring buffer -/

/-- `INIT` on `X` (41 R120). -/
def initRing (x : RingId) (s : State) : Result :=
  .ok (s.setRing x (s.ring x).clear, { ok := true })

/-- `PUT a` on `X` (41 R121). -/
def putByte (x : RingId) (a : Byte) (s : State) : Result :=
  match (s.ring x).put s.params.capacity a with
  | .error f => .error f
  | .ok none => raise .bufferFull s
  | .ok (some r) => .ok (s.setRing x r, { ok := true })

/-- `GET` on `X` (41 R122). -/
def getByte (x : RingId) (s : State) : Result :=
  match (s.ring x).get s.params.capacity with
  | .error f => .error f
  | .ok none => raise .bufferEmpty s
  | .ok (some (v, r)) => .ok (s.setRing x r, { ok := true, d0 := v })

/-! ### Operations of several primitives -/

/-- What agent `a` still has to do. -/
def State.task (s : State) : Agent → Option Task
  | .poll => s.pollTask
  | .rxi => s.rxiTask
  | .tmr => s.tmrTask

/-- What agent `a` still has to do, replaced. -/
def State.setTask (s : State) (a : Agent) (t : Option Task) : State :=
  match a with
  | .poll => { s with pollTask := t }
  | .rxi => { s with rxiTask := t }
  | .tmr => { s with tmrTask := t }

/-- The agent being served has more primitives to do (20 R76). -/
def goOn (t : Task) (s : State) : Host.Outcome State Fault Refusal :=
  .next (s.setTask s.serving (some t))

/-- The agent being served has done the last primitive of its operation: the response delivered. -/
def finish (r : Response) (s : State) : Host.Outcome State Fault Refusal :=
  .next ((s.setTask s.serving none).respond r)

end Sys2Proof.Machine
end

