-- ==== Sys2Proof/Machine/FrameAssembler.lean ====
section
/-! DEFINITION. The FrameAssembler operations (42 R140 to R146). -/

namespace Sys2Proof.Machine

/-- What the automaton makes of a byte (42 R150). -/
inductive Verdict where
  /-- Stored in the window, no test (states 0 to 3). -/
  | stored
  /-- The window is a valid frame (42 R142). -/
  | frame (f : Frame5)
  /-- It is not: the window slid by one byte (42 R143). -/
  | mismatch
deriving DecidableEq, Repr

/-- One byte into the automaton (42 R141, R150). -/
def accept (fa : Assembler) (b : Byte) : Assembler × Verdict :=
  let w := fa.window
  match fa.state with
  | .awaitCommand => ({ state := .awaitParam1, window := { w with command := b } }, .stored)
  | .awaitParam1 => ({ state := .awaitParam2, window := { w with param1 := b } }, .stored)
  | .awaitParam2 => ({ state := .awaitParam3, window := { w with param2 := b } }, .stored)
  | .awaitParam3 => ({ state := .awaitChecksum, window := { w with param3 := b } }, .stored)
  | .awaitChecksum =>
    if b = cks w.command w.param1 w.param2 w.param3 then
      ({ state := .awaitCommand, window := { w with checksum := b } }, .frame { w with checksum := b })
    else
      ({ state := .awaitChecksum
         window := { command := w.param1, param1 := w.param2, param2 := w.param3, param3 := b, checksum := b } },
        .mismatch)

/-- The response of a step that pulled a byte (42 R141). -/
def stepResponse : Verdict → Response
  | .stored => { ok := true, consumed := true }
  | .frame f =>
    { ok := true, consumed := true, valid := true
      d0 := f.command, d1 := f.param1, d2 := f.param2, d3 := f.param3, d4 := f.checksum }
  | .mismatch => { ok := true, consumed := true, cond := .checksumMismatch }

/-- The event of a step that pulled a byte: `FRAME` on a match, none otherwise (42 R141). -/
def emitVerdict (v : Verdict) (s : State) : State :=
  match v with
  | .stored => s
  | .frame f => s.emit (.frame f.command f.param1 f.param2 f.param3)
  | .mismatch => s

/-- `FA_STEP` as a primitive (42 R141): the byte comes from `GET` on `rx` (30 R94); with none, nothing changes (42 R144). -/
def faStep (s : State) : Result :=
  match s.rx.get s.params.capacity with
  | .error f => .error f
  | .ok none => raise .bufferEmpty s
  | .ok (some (b, r)) =>
    let av := accept s.fa b
    .ok (emitVerdict av.2 { s with rx := r, fa := av.1 }, stepResponse av.2)

/-- `FA_INIT` as a primitive (42 R140): the state fixed, the window without a value (free values, log 3). -/
def faInit (s : State) : Result :=
  .ok ({ s with fa := { state := .awaitCommand, window := freeWindow s.freeCount }, freeCount := s.freeCount + 5 },
    { ok := true })

/-- One turn of `TRY_GET_FRAME`'s loop (42 R146): one `FA_STEP`, then return its frame, return `BUFFER_EMPTY`, or go on.
The loop need not end (70 R259, U13): each turn that finds a byte and no frame is followed by another, and the outside may go on
storing bytes for ever (`State.later`; log 20). -/
def tryGetFrameTurn (s : State) : Host.Outcome State Fault Refusal :=
  match faStep s with
  | .error f => .fault f
  | .ok (t, r) =>
    if r.valid then finish r t
    else if r.consumed then goOn .tryGetFrame t
    else finish { ok := false, cond := .bufferEmpty } t

/-- `FA_INIT` (42 R140). -/
def execFaInit (s : State) : Host.Outcome State Fault Refusal := complete (faInit s)

/-- `FA_STEP` (42 R141). -/
def execFaStep (s : State) : Host.Outcome State Fault Refusal := complete (faStep s)

/-- `TRY_GET_FRAME` (42 R146): its first turn; `resume` does the rest, one primitive a step (log 1). -/
def execTryGetFrame (s : State) : Host.Outcome State Fault Refusal := tryGetFrameTurn s

end Sys2Proof.Machine
end

