-- ==== Sys2Proof/Machine/FrameEncoder.lean ====
section
/-! DEFINITION. The FrameEncoder operations (43 R160 to R164). -/

namespace Sys2Proof.Machine

/-- The reservation test of `FE_PUT_FRAME` (43 R161, D13): one atomic read of `tx.count`. -/
def reserveFrame (c p1 p2 p3 : Byte) (thenArm : Bool) (s : State) : Host.Outcome State Fault Refusal :=
  if s.tx.count + 5 > s.params.capacity then finish { ok := false, cond := .bufferFull } s
  else goOn (.putFrame (encodeFrame c p1 p2 p3) 0 thenArm) s

/-- After the fifth byte: the response, and for a `SEND` the arming still to do (30 R109). -/
def frameStored (thenArm : Bool) (s : State) : Host.Outcome State Fault Refusal :=
  if thenArm then goOn .arm (s.respond { ok := true }) else finish { ok := true } s

/-- Storing byte `i` of `e` (43 R161): one `TXB_PUT`; a failure reports the `i` bytes already stored and stops (43 R163). -/
def putFrameTurn (e : Frame5) (i : Fin 5) (thenArm : Bool) (s : State) : Host.Outcome State Fault Refusal :=
  match putByte .tx (frameByte e i) s with
  | .error f => .fault f
  | .ok (t, r) =>
    if r.ok then
      if i = 4 then frameStored thenArm t else goOn (.putFrame e (i + 1) thenArm) t
    else finish { ok := false, cond := .bufferFull, d0 := BitVec.ofNat 8 i } t

/-- `FE_ENCODE a, b, c, d` (43 R160): a pure function of its operands. -/
def execFeEncode (a b c d : Byte) (s : State) : Host.Outcome State Fault Refusal :=
  let e := encodeFrame a b c d
  complete (.ok (s, { ok := true, d0 := e.command, d1 := e.param1, d2 := e.param2, d3 := e.param3, d4 := e.checksum }))

/-- `FE_PUT_FRAME a, b, c, d` (43 R161): its reservation test; `resume` does the five `PUT`s, one a step (log 1).
It does not arm the pacer (43 R164). -/
def execFePutFrame (a b c d : Byte) (s : State) : Host.Outcome State Fault Refusal := reserveFrame a b c d false s

end Sys2Proof.Machine
end

