-- ==== Sys2Proof/Machine/Reset.lean ====
section
/-! DEFINITION. `RESET` (70 R240). -/

namespace Sys2Proof.Machine

/-- The effect of `RESET` and of the reset input of the block (70 R240): the four initialisations as one primitive.
It touches the core only: no store (10 R43), no outstanding event (70 R242, R260), no agent's unfinished operation. -/
def resetCore (s : State) : State :=
  { s with
    rx := s.rx.clear
    tx := s.tx.clear
    fa := { state := .awaitCommand, window := freeWindow s.freeCount }
    armed := false
    freeCount := s.freeCount + 5 }

/-- `RESET` (70 R240). -/
def execReset (s : State) : Host.Outcome State Fault Refusal := complete (.ok (resetCore s, { ok := true }))

end Sys2Proof.Machine
end

