-- ==== Sys2Proof/Machine/RingBuffer.lean ====
section
/-! DEFINITION. The RingBuffer operations (41 R120 to R122) on each instance. -/

namespace Sys2Proof.Machine

/-- `RXB_INIT` (41 R120). -/
def execRxbInit (s : State) : Host.Outcome State Fault Refusal := complete (initRing .rx s)

/-- `RXB_PUT a` (41 R121). -/
def execRxbPut (a : Byte) (s : State) : Host.Outcome State Fault Refusal := complete (putByte .rx a s)

/-- `RXB_GET` (41 R122). -/
def execRxbGet (s : State) : Host.Outcome State Fault Refusal := complete (getByte .rx s)

/-- `TXB_INIT` (41 R120). -/
def execTxbInit (s : State) : Host.Outcome State Fault Refusal := complete (initRing .tx s)

/-- `TXB_PUT a` (41 R121). -/
def execTxbPut (a : Byte) (s : State) : Host.Outcome State Fault Refusal := complete (putByte .tx a s)

/-- `TXB_GET` (41 R122). -/
def execTxbGet (s : State) : Host.Outcome State Fault Refusal := complete (getByte .tx s)

end Sys2Proof.Machine
end

