-- ==== Sys2Proof/Machine/TransmitPacer.lean ====
section
/-! DEFINITION. The TransmitPacer operations (44 R175 to R178). -/

namespace Sys2Proof.Machine

/-- `TP_FIRE` as a primitive (44 R176): a byte to the transport and then the request for the next event, in that order
(44 R177); or the end of the chain (44 R179). -/
def tpFire (s : State) : Result :=
  match s.tx.get s.params.capacity with
  | .error f => .error f
  | .ok none => raise .bufferEmpty { s with armed := false }
  | .ok (some (b, r)) =>
    .ok ({ (({ s with tx := r }.emit (.tx b)).schedule (bytePeriod s.params)) with armed := true },
      { ok := true, txb := true, sched := true, d0 := b })

/-- `TP_ARM` as a primitive (44 R178): test and set. -/
def tpArm (s : State) : Result :=
  if s.armed then raise .pacerBusy s
  else .ok ({ s.schedule s.params.armDelay with armed := true }, { ok := true, sched := true })

/-- `TP_INIT` as a primitive (44 R175): it cancels no event already asked for. -/
def tpInit (s : State) : Result := .ok ({ s with armed := false }, { ok := true })

/-- The arming at the end of a `SEND` (30 R109). -/
def armTurn (s : State) : Host.Outcome State Fault Refusal :=
  match tpArm s with
  | .error f => .fault f
  | .ok (t, r) => finish r t

/-- One fire of a `DRAIN` (30 R110): the oldest outstanding event, if any, is the one delivered (log 10);
again until one answers `sched = 0`. Each fire is an operation with a response of its own. -/
def drainTurn (s : State) : Host.Outcome State Fault Refusal :=
  match tpFire { s with outstanding := s.outstanding.tail } with
  | .error f => .fault f
  | .ok (t, r) => if r.sched then goOn .drain (t.respond r) else finish r t

/-- `TP_INIT` (44 R175). -/
def execTpInit (s : State) : Host.Outcome State Fault Refusal := complete (tpInit s)

/-- `TP_FIRE` (44 R176). -/
def execTpFire (s : State) : Host.Outcome State Fault Refusal := complete (tpFire s)

/-- `TP_ARM` (44 R178). -/
def execTpArm (s : State) : Host.Outcome State Fault Refusal := complete (tpArm s)

end Sys2Proof.Machine
end

