-- ==== Sys2Proof/Machine/Dispatch.lean ====
section
/-! DEFINITION. The meaning of each operation (30 R101), one arm per constructor. -/

namespace Sys2Proof.Machine

def exec (i : Instr) (s : State) : Host.Outcome State Fault Refusal :=
  match i with
  | .rxbInit => Sys2Proof.Machine.execRxbInit s
  | .rxbPut a => Sys2Proof.Machine.execRxbPut a s
  | .rxbGet => Sys2Proof.Machine.execRxbGet s
  | .txbInit => Sys2Proof.Machine.execTxbInit s
  | .txbPut a => Sys2Proof.Machine.execTxbPut a s
  | .txbGet => Sys2Proof.Machine.execTxbGet s
  | .faInit => Sys2Proof.Machine.execFaInit s
  | .faStep => Sys2Proof.Machine.execFaStep s
  | .tryGetFrame => Sys2Proof.Machine.execTryGetFrame s
  | .feEncode a b c d => Sys2Proof.Machine.execFeEncode a b c d s
  | .fePutFrame a b c d => Sys2Proof.Machine.execFePutFrame a b c d s
  | .tpInit => Sys2Proof.Machine.execTpInit s
  | .tpFire => Sys2Proof.Machine.execTpFire s
  | .tpArm => Sys2Proof.Machine.execTpArm s
  | .reset => Sys2Proof.Machine.execReset s

end Sys2Proof.Machine
end

