-- ==== Sys2Proof/WellFormed.lean ====
section
/-! DEFINITION. The checks on what a user of the core writes: the configuration (00 R7, R8) and a source line (30 R107 to R110).
An `Instr` needs none: its operands are bytes by type and every byte is legal (30 R91, R94). -/

namespace Sys2Proof

/-- A legal configuration: `C >= 1` (00 R7, D12) and `BAUD_RATE >= 1` (00 R8, D14). -/
abbrev Params.Legal (p : Params) : Prop := 1 ≤ p.capacity ∧ 1 ≤ p.baudRate

/-- How many operand bytes a mnemonic takes (30 R94, R108 to R110). -/
def Mnemonic.arity : Mnemonic → Nat
  | .rxbPut => 1
  | .txbPut => 1
  | .rxEvent => 1
  | .feEncode => 4
  | .fePutFrame => 4
  | .send => 4
  | .rxbInit => 0
  | .rxbGet => 0
  | .txbInit => 0
  | .txbGet => 0
  | .faInit => 0
  | .faStep => 0
  | .tryGetFrame => 0
  | .tpInit => 0
  | .tpFire => 0
  | .tpArm => 0
  | .reset => 0
  | .drain => 0

/-- The agent a mnemonic is bound to: `RX_EVENT` is what `RXI` does (30 R108), `DRAIN` is `TMR` firing (30 R110);
any agent may issue anything else (60 R219). -/
def Mnemonic.owner : Mnemonic → Option Agent
  | .rxEvent => some .rxi
  | .drain => some .tmr
  | .rxbInit => none
  | .rxbPut => none
  | .rxbGet => none
  | .txbInit => none
  | .txbPut => none
  | .txbGet => none
  | .faInit => none
  | .faStep => none
  | .tryGetFrame => none
  | .feEncode => none
  | .fePutFrame => none
  | .tpInit => none
  | .tpFire => none
  | .tpArm => none
  | .reset => none
  | .send => none

/-- The agent prefix suits the mnemonic: none written, no owner, or the owner itself. -/
abbrev AsmLine.AgentOk (l : AsmLine) : Prop :=
  l.agent = none ∨ l.mnemonic.owner = none ∨ l.agent = l.mnemonic.owner

/-- A well-formed source line (30 R107): the operands its mnemonic takes, each a byte `0 .. 255`, issued by an agent that may. -/
abbrev AsmLine.WellFormed (l : AsmLine) : Prop :=
  l.operands.length = l.mnemonic.arity ∧ (∀ n ∈ l.operands, n < 256) ∧ l.AgentOk

end Sys2Proof
end

