-- ==== Sys2Proof/Machine/Agents.lean ====
section
/-! DEFINITION. How requests reach the core (20 R71, R75, R76; 60 R206 to R218): command words served, events handled, operations
of several primitives gone on with. -/

namespace Sys2Proof.Machine

/-- A command word of agent `a` served (30 R103): its operation, or `ILLEGAL_OP` for a reserved code (30 R104). -/
def serve (a : Agent) (w : CommandWord) (s : State) : Host.Outcome State Fault Refusal :=
  match decode w with
  | .ok i => exec i { s with serving := a }
  | .error (.reservedOp _) => complete (raise .illegalOp { s with serving := a })

/-- The next primitive of what the agent being served still has to do (20 R76). -/
def taskTurn (t : Task) (s : State) : Host.Outcome State Fault Refusal :=
  match t with
  | .tryGetFrame => tryGetFrameTurn s
  | .putFrame e i thenArm => putFrameTurn e i thenArm s
  | .arm => armTurn s
  | .drain => drainTurn s

/-- A turn of agent `a`: the next primitive of its operation, or nothing when it has none under way (log 13). -/
def resume (a : Agent) (s : State) : Host.Outcome State Fault Refusal :=
  match s.task a with
  | some t => taskTurn t { s with serving := a }
  | none => .next s

/-- The agents with an operation under way. -/
def busyAgents (s : State) : List Agent :=
  [Agent.poll, .rxi, .tmr].filter fun a => (s.task a).isSome

/-- Nothing asked from outside at this step: the core waits (70 R243), or the one agent in mid-operation goes on; with several, a free
choice of which (20 R75; log 2). -/
def proceed (s : State) : Host.Outcome State Fault Refusal :=
  match busyAgents s with
  | [] => .next s
  | [a] => resume a s
  | a :: as =>
    resume ((a :: as).getD (Config.freeTurn s.freeCount % (as.length + 1)) a) { s with freeCount := s.freeCount + 1 }

/-- The agent that an input asks to begin an operation. -/
def Input.starter : Input → Option Agent
  | .request a _ => some a
  | .rxEvent _ => some .rxi
  | .timerEvent _ => some .tmr
  | .send a _ _ _ _ => some a
  | .drain => some .tmr
  | .resume _ => none
  | .resetLine => none

/-- One input, already taken from the list, whose agent is free. -/
def perform (i : Input) (s : State) : Host.Outcome State Fault Refusal :=
  match i with
  | .request a w => serve a w s
  | .rxEvent none => .next s
  | .rxEvent (some b) => serve .rxi (encode (.rxbPut b)) s
  | .timerEvent k =>
    if k < s.outstanding.length then
      serve .tmr (encode .tpFire) { s with outstanding := s.outstanding.eraseIdx k }
    else .next s
  | .resume a => resume a s
  | .resetLine => .next (resetCore s)
  | .send a c p1 p2 p3 => reserveFrame c p1 p2 p3 true { s with serving := a }
  | .drain => drainTurn { s with serving := .tmr }

/-- The agent that must first end its operation under way before the input can begin another (20 R76; log 12). -/
def waitsFor (i : Input) (s : State) : Option Agent :=
  match i.starter with
  | some a => if (s.task a).isSome then some a else none
  | none => none

/-- The inputs ahead, drawn from what the outside does later once those listed are used up (10 R44). The outside may go on for
ever, so an operation whose length the inputs decide need not end: `TRY_GET_FRAME` (42 R146, 70 R259, U13; log 20). -/
def State.supply (s : State) : State :=
  match s.inputs with
  | _ :: _ => s
  | [] =>
    match s.later with
    | .silent => s
    | .again is => { s with inputs := is }
    | .free => { s with inputs := (Config.freeInput s.freeCount).toList, freeCount := s.freeCount + 1 }

/-- The next input ahead, or the operation under way that it waits for. -/
def attend (s : State) : Host.Outcome State Fault Refusal :=
  match s.inputs with
  | [] => proceed s
  | i :: rest =>
    match waitsFor i s with
    | some a => resume a s
    | none => perform i { s with inputs := rest }

/-- One primitive (20 R71). -/
def advance (s : State) : Host.Outcome State Fault Refusal := attend s.supply

end Sys2Proof.Machine
end

