-- ==== Sys2Proof/Machine/Step.lean ====
section
/-! DEFINITION. One step of the machine: one primitive (20 R71), in a legal configuration. -/

namespace Sys2Proof.Machine

/-- One primitive, in a legal configuration (00 R7, R8); the model refuses any other (U10, U18; log 7). -/
def step (s : State) : Host.Outcome State Fault Refusal :=
  if s.params.Legal then advance s else .refused .illegalConfiguration

/-- `POLL` presents the command word `w` as the very next thing that happens (log 14). -/
def State.withFetchWord (s : State) (nbits w : Nat) : State :=
  { s with
    inputs := .request .poll (BitVec.ofNat 40 (w % 2 ^ nbits)) :: s.inputs
    pollTask := none }

end Sys2Proof.Machine
end

