-- ==== Sys2Proof/Machine/Assembler.lean ====
section
/-! DEFINITION. The source notation of the spec (30 R107 to R111): characters to a source line, a source line to what the outside
does (log 15). -/

namespace Sys2Proof.Machine

/-- What a source line is made of. -/
inductive Token where
  | word (cs : List Char)
  | comma
  | colon
deriving DecidableEq, Repr

/-- The characters before a comment (30 R107: "from `;` to the end of the line"). -/
def beforeComment : List Char → List Char
  | [] => []
  | c :: cs => if c = ';' then [] else c :: beforeComment cs

/-- A finished word, if any, in front of the rest. -/
def pushWord (acc : List Char) (ts : List Token) : List Token :=
  if acc.isEmpty then ts else .word acc.reverse :: ts

/-- Characters to tokens; `acc` is the word being read, reversed. -/
def tokens (acc : List Char) : List Char → List Token
  | [] => pushWord acc []
  | c :: cs =>
    if c = ' ' ∨ c = '\t' then pushWord acc (tokens [] cs)
    else if c = ',' then pushWord acc (.comma :: tokens [] cs)
    else if c = ':' then pushWord acc (.colon :: tokens [] cs)
    else tokens (c :: acc) cs

/-- The value of a decimal digit. -/
def decDigit (c : Char) : Option Nat :=
  if '0'.toNat ≤ c.toNat ∧ c.toNat ≤ '9'.toNat then some (c.toNat - '0'.toNat) else none

/-- The value of a hexadecimal digit. -/
def hexDigit (c : Char) : Option Nat :=
  if 'A'.toNat ≤ c.toNat ∧ c.toNat ≤ 'F'.toNat then some (c.toNat - 'A'.toNat + 10)
  else if 'a'.toNat ≤ c.toNat ∧ c.toNat ≤ 'f'.toNat then some (c.toNat - 'a'.toNat + 10)
  else decDigit c

/-- A decimal numeral continued from `n`. -/
def decimal (n : Nat) : List Char → Option Nat
  | [] => some n
  | c :: cs =>
    match decDigit c with
    | some d => decimal (10 * n + d) cs
    | none => none

/-- An operand: `0xNN` or decimal (30 R107). -/
def operand : List Char → Option Nat
  | [] => none
  | ['0', 'x', h, l] =>
    match hexDigit h, hexDigit l with
    | some a, some b => some (16 * a + b)
    | _, _ => none
  | c :: cs => decimal 0 (c :: cs)

/-- Operands separated by commas, after the first. -/
def moreOperands : List Token → Option (List Nat)
  | [] => some []
  | .comma :: .word w :: ts =>
    match operand w, moreOperands ts with
    | some n, some ns => some (n :: ns)
    | _, _ => none
  | _ => none

/-- The operands of a line (30 R107). -/
def operands : List Token → Option (List Nat)
  | [] => some []
  | .word w :: ts =>
    match operand w, moreOperands ts with
    | some n, some ns => some (n :: ns)
    | _, _ => none
  | _ => none

/-- The mnemonics as written (30 R101, R108 to R110). -/
def mnemonicNames : List (List Char × Mnemonic) :=
  [("RXB_INIT".toList, .rxbInit), ("RXB_PUT".toList, .rxbPut), ("RXB_GET".toList, .rxbGet),
   ("TXB_INIT".toList, .txbInit), ("TXB_PUT".toList, .txbPut), ("TXB_GET".toList, .txbGet),
   ("FA_INIT".toList, .faInit), ("FA_STEP".toList, .faStep), ("TRY_GET_FRAME".toList, .tryGetFrame),
   ("FE_ENCODE".toList, .feEncode), ("FE_PUT_FRAME".toList, .fePutFrame),
   ("TP_INIT".toList, .tpInit), ("TP_FIRE".toList, .tpFire), ("TP_ARM".toList, .tpArm), ("RESET".toList, .reset),
   ("RX_EVENT".toList, .rxEvent), ("SEND".toList, .send), ("DRAIN".toList, .drain)]

/-- The agents as written (30 R107). -/
def agentNames : List (List Char × Agent) :=
  [("POLL".toList, .poll), ("RXI".toList, .rxi), ("TMR".toList, .tmr)]

/-- An operation and its operands, for an agent. -/
def operation (a : Option Agent) : List Token → Option AsmLine
  | .word w :: ts =>
    match mnemonicNames.lookup w, operands ts with
    | some m, some ns => some { agent := a, mnemonic := m, operands := ns }
    | _, _ => none
  | _ => none

/-- A source line (30 R107): `some none` when it is blank or a comment, `none` when it is no line of the notation. -/
def parseLine (cs : List Char) : Option (Option AsmLine) :=
  match tokens [] (beforeComment cs) with
  | [] => some none
  | .word a :: .colon :: ts =>
    match agentNames.lookup a with
    | some a => (operation (some a) ts).map some
    | none => none
  | ts => (operation none ts).map some

/-- A form that takes one operand byte. -/
def withByte {α : Type} (f : Byte → α) : List Byte → Option α
  | [a] => some (f a)
  | _ => none

/-- A form that takes four operand bytes. -/
def withFourBytes {α : Type} (f : Byte → Byte → Byte → Byte → α) : List Byte → Option α
  | [a, b, c, d] => some (f a b c d)
  | _ => none

/-- The operation of a mnemonic that is one (30 R101), on its operand bytes. -/
def instrOf (m : Mnemonic) (bs : List Byte) : Option Instr :=
  match m with
  | .rxbInit => some .rxbInit
  | .rxbPut => withByte .rxbPut bs
  | .rxbGet => some .rxbGet
  | .txbInit => some .txbInit
  | .txbPut => withByte .txbPut bs
  | .txbGet => some .txbGet
  | .faInit => some .faInit
  | .faStep => some .faStep
  | .tryGetFrame => some .tryGetFrame
  | .feEncode => withFourBytes .feEncode bs
  | .fePutFrame => withFourBytes .fePutFrame bs
  | .tpInit => some .tpInit
  | .tpFire => some .tpFire
  | .tpArm => some .tpArm
  | .reset => some .reset
  | .rxEvent => none
  | .send => none
  | .drain => none

/-- The agent of a line: the one written, or `POLL` (30 R107). -/
def lineAgent (l : AsmLine) : Agent := l.agent.getD .poll

/-- What a well-formed line makes the outside do (30 R107 to R110). `TMR: TP_FIRE` is the delivery of the oldest outstanding
timer event, the only reason for which `TMR` issues it (44 R181; log 15). -/
def assemble (l : AsmLine) : Option Input :=
  if l.WellFormed then
    let bs := l.operands.map (BitVec.ofNat 8)
    match l.mnemonic with
    | .rxEvent => withByte (fun b => .rxEvent (some b)) bs
    | .send => withFourBytes (.send (lineAgent l)) bs
    | .drain => some .drain
    | m =>
      if lineAgent l = .tmr ∧ m = .tpFire then some (.timerEvent 0)
      else (instrOf m bs).map fun i => .request (lineAgent l) (encode i)
  else none

/-- The source line of an operation by agent `a` (30 R107). -/
def lineOf (a : Agent) : Instr → AsmLine
  | .rxbInit => { agent := some a, mnemonic := .rxbInit, operands := [] }
  | .rxbPut x => { agent := some a, mnemonic := .rxbPut, operands := [x.toNat] }
  | .rxbGet => { agent := some a, mnemonic := .rxbGet, operands := [] }
  | .txbInit => { agent := some a, mnemonic := .txbInit, operands := [] }
  | .txbPut x => { agent := some a, mnemonic := .txbPut, operands := [x.toNat] }
  | .txbGet => { agent := some a, mnemonic := .txbGet, operands := [] }
  | .faInit => { agent := some a, mnemonic := .faInit, operands := [] }
  | .faStep => { agent := some a, mnemonic := .faStep, operands := [] }
  | .tryGetFrame => { agent := some a, mnemonic := .tryGetFrame, operands := [] }
  | .feEncode x y z w => { agent := some a, mnemonic := .feEncode, operands := [x.toNat, y.toNat, z.toNat, w.toNat] }
  | .fePutFrame x y z w => { agent := some a, mnemonic := .fePutFrame, operands := [x.toNat, y.toNat, z.toNat, w.toNat] }
  | .tpInit => { agent := some a, mnemonic := .tpInit, operands := [] }
  | .tpFire => { agent := some a, mnemonic := .tpFire, operands := [] }
  | .tpArm => { agent := some a, mnemonic := .tpArm, operands := [] }
  | .reset => { agent := some a, mnemonic := .reset, operands := [] }

end Sys2Proof.Machine
end

