-- ==== Sys2Proof/Safety.lean ====
section
/-! DEFINITION. What claims are made of: the invariant of the core (10 R23, R40), the discipline of the agents (60 R218,
70 R255 to R261) and what it keeps (20 R80, 44 R181), the automaton fed a list of bytes (42 R149), a buffer under a list of
operations (20 R73), and states that no agent can tell apart (10 R40, R41, 20 R61). -/

namespace Sys2Proof.Machine

/-! ### The invariant of the core -/

/-- A ring buffer in order: the invariant of 10 R23 (as `end = (start + count) mod C`, the congruence form of C1), the store
canonical and inside `0 .. C - 1` (10 R25), and every cell of the contents written (10 R40). -/
structure Ring.Wf (C : Nat) (r : Ring) : Prop where
  start_lt : r.start < C
  count_le : r.count ≤ C
  endp_eq : r.endp = (r.start + r.count) % C
  mem_wf : Memory.Wf r.mem
  mem_lt : ∀ cell ∈ r.mem, cell.1 < C
  written : ∀ i < r.count, (Memory.read r.mem ((r.start + i) % C)).isSome

/-- The invariant of the machine: a legal configuration and both buffers in order. The other fields are right by type:
`fa.state` is five-valued (10 R29), a byte is 8 bits. -/
structure State.Inv (s : State) : Prop where
  legal : s.params.Legal
  rx : s.rx.Wf s.params.capacity
  tx : s.tx.Wf s.params.capacity

/-! ### The operations on either buffer -/

/-- `RXB_INIT` or `TXB_INIT`. -/
def initOf : RingId → Instr
  | .rx => .rxbInit
  | .tx => .txbInit

/-- `RXB_PUT a` or `TXB_PUT a`. -/
def putOf (a : Byte) : RingId → Instr
  | .rx => .rxbPut a
  | .tx => .txbPut a

/-- `RXB_GET` or `TXB_GET`. -/
def getOf : RingId → Instr
  | .rx => .rxbGet
  | .tx => .txbGet

/-- The primitives that reach `rx` (20 R60). -/
def rxPrimitive : Instr → Bool
  | .rxbInit => true
  | .rxbPut _ => true
  | .rxbGet => true
  | .faStep => true
  | .txbInit => false
  | .txbPut _ => false
  | .txbGet => false
  | .faInit => false
  | .tryGetFrame => false
  | .feEncode _ _ _ _ => false
  | .fePutFrame _ _ _ _ => false
  | .tpInit => false
  | .tpFire => false
  | .tpArm => false
  | .reset => false

/-- The primitives that reach `tx` (20 R60). -/
def txPrimitive : Instr → Bool
  | .txbInit => true
  | .txbPut _ => true
  | .txbGet => true
  | .tpFire => true
  | .rxbInit => false
  | .rxbPut _ => false
  | .rxbGet => false
  | .faStep => false
  | .faInit => false
  | .tryGetFrame => false
  | .feEncode _ _ _ _ => false
  | .fePutFrame _ _ _ _ => false
  | .tpInit => false
  | .tpArm => false
  | .reset => false

/-- The fifteen operation codes (30 R101). -/
def opCodes : List Byte :=
  [0x00, 0x01, 0x02, 0x10, 0x11, 0x12, 0x20, 0x21, 0x22, 0x30, 0x31, 0x40, 0x41, 0x42, 0xFF]

/-! ### Frames -/

/-- A valid wire frame (30 R91): its fifth byte is the XOR of the other four. -/
abbrev Frame5.Valid (f : Frame5) : Prop := f.checksum = cks f.command f.param1 f.param2 f.param3

/-- Byte `i` of a frame changed by the XOR difference `x`. -/
def Frame5.flip (f : Frame5) (i : Fin 5) (x : Byte) : Frame5 :=
  match i with
  | 0 => { f with command := f.command ^^^ x }
  | 1 => { f with param1 := f.param1 ^^^ x }
  | 2 => { f with param2 := f.param2 ^^^ x }
  | 3 => { f with param3 := f.param3 ^^^ x }
  | 4 => { f with checksum := f.checksum ^^^ x }

/-- The automaton fed a list of bytes (42 R149): the state it ends in and the frames it emits, in order. -/
def feed : Assembler → List Byte → Assembler × List Frame5
  | fa, [] => (fa, [])
  | fa, b :: bs =>
    let av := accept fa b
    let r := feed av.1 bs
    match av.2 with
    | .stored => r
    | .frame f => (r.1, f :: r.2)
    | .mismatch => r

/-- The bytes of the window that the automaton will still read (10 R41): those of the states already passed. -/
def Assembler.liveWindow (fa : Assembler) : List Byte :=
  match fa.state with
  | .awaitCommand => []
  | .awaitParam1 => [fa.window.command]
  | .awaitParam2 => [fa.window.command, fa.window.param1]
  | .awaitParam3 => [fa.window.command, fa.window.param1, fa.window.param2]
  | .awaitChecksum => [fa.window.command, fa.window.param1, fa.window.param2, fa.window.param3]

/-! ### A buffer under a list of operations -/

/-- An operation on one buffer (20 R73). -/
inductive RingOp where
  | put (b : Byte)
  | get
deriving DecidableEq, Repr

/-- A list of operations on one buffer: the buffer it leaves, the bytes successfully stored, the bytes returned. -/
def runRing (C : Nat) : Ring → List RingOp → Except Fault (Ring × List Byte × List Byte)
  | r, [] => .ok (r, [], [])
  | r, .put b :: ops =>
    match r.put C b with
    | .error f => .error f
    | .ok none => runRing C r ops
    | .ok (some r1) =>
      match runRing C r1 ops with
      | .error f => .error f
      | .ok (r2, stored, returned) => .ok (r2, b :: stored, returned)
  | r, .get :: ops =>
    match r.get C with
    | .error f => .error f
    | .ok none => runRing C r ops
    | .ok (some (b, r1)) =>
      match runRing C r1 ops with
      | .error f => .error f
      | .ok (r2, stored, returned) => .ok (r2, stored, b :: returned)

/-! ### Agents that keep the conventions -/

/-- What `POLL` may ask for in service (60 R218, 70 R255 to R257): the assembler's, the encoder's and the arming operation;
no `INIT`, no `RESET`, no direct access to a buffer. A reserved code changes nothing (30 R104). -/
def pollMayAsk (w : CommandWord) : Bool :=
  match decode w with
  | .ok .faStep => true
  | .ok .tryGetFrame => true
  | .ok (.feEncode _ _ _ _) => true
  | .ok (.fePutFrame _ _ _ _) => true
  | .ok .tpArm => true
  | .error _ => true
  | .ok _ => false

/-- What `RXI` may ask for in service (60 R218): `RXB_PUT`. -/
def rxiMayAsk (w : CommandWord) : Bool :=
  match decode w with
  | .ok (.rxbPut _) => true
  | .ok _ => false
  | .error _ => true

/-- An input that keeps the conventions of 60 R218 and 70 R255 to R261: only `RXI` stores into `rx`, only `POLL` stores into `tx` and
steps the assembler, `TMR` fires only on delivery of an outstanding event, nothing is initialised again. -/
def Input.disciplined : Input → Bool
  | .request .poll w => pollMayAsk w
  | .request .rxi w => rxiMayAsk w
  | .request .tmr _ => false
  | .rxEvent _ => true
  | .timerEvent _ => true
  | .resume _ => true
  | .resetLine => false
  | .send .poll _ _ _ _ => true
  | .send .rxi _ _ _ _ => false
  | .send .tmr _ _ _ _ => false
  | .drain => false

/-- What the outside does later keeps the conventions. Of an outside that goes on freely this is a premise on its free inputs. -/
def Later.Disciplined : Later → Prop
  | .silent => True
  | .again is => ∀ i ∈ is, i.disciplined = true
  | .free => ∀ n i, Config.freeInput n = some i → i.disciplined = true

/-- A core in service: the invariant, only disciplined inputs ahead and later, operations of several primitives only at `POLL`, as many
outstanding timer events as `tp.armed` says (44 R181), and room kept for a frame being stored (20 R80). -/
structure State.Service (s : State) : Prop where
  inv : s.Inv
  inputs : ∀ i ∈ s.inputs, i.disciplined = true
  later : s.later.Disciplined
  rxiFree : s.rxiTask = none
  tmrFree : s.tmrTask = none
  noDrain : s.pollTask ≠ some .drain
  timer : s.outstanding.length = if s.armed then 1 else 0
  room : ∀ e i arm, s.pollTask = some (.putFrame e i arm) → s.tx.count + (5 - i.val) ≤ s.params.capacity

/-- The bytes handed to the transport, in order (60 R223). -/
def txBytes : List Output → List Byte
  | [] => []
  | .tx b :: os => b :: txBytes os
  | .sched _ :: os => txBytes os
  | .frame _ _ _ _ :: os => txBytes os
  | .response _ _ :: os => txBytes os

/-- The bytes of a frame that its `FE_PUT_FRAME` has still to store (43 R161). -/
def pendingBytes : Option Task → List Byte
  | some (.putFrame e i _) => (wireBytes e).drop i.val
  | some .tryGetFrame => []
  | some .arm => []
  | some .drain => []
  | none => []

/-- What has been sent, what waits in `tx` and what `POLL` is about to store make up whole valid frames, one after another
(43 R162: contiguous, in wire order). -/
def State.WholeFrames (s : State) : Prop :=
  ∃ fs : List Frame5, (∀ f ∈ fs, f.Valid) ∧
    txBytes s.trace ++ s.tx.contents s.params.capacity ++ pendingBytes s.pollTask = fs.flatMap wireBytes

/-! ### What cannot be observed -/

/-- Two states that agree on everything an agent can observe now or later: stale cells, the position of the contents in the store
(20 R61) and stale window registers (10 R41) may differ. -/
structure State.SameView (s t : State) : Prop where
  params : s.params = t.params
  rx : s.rx.contents s.params.capacity = t.rx.contents t.params.capacity
  tx : s.tx.contents s.params.capacity = t.tx.contents t.params.capacity
  faState : s.fa.state = t.fa.state
  window : s.fa.liveWindow = t.fa.liveWindow
  armed : s.armed = t.armed
  outstanding : s.outstanding = t.outstanding
  pollTask : s.pollTask = t.pollTask
  rxiTask : s.rxiTask = t.rxiTask
  tmrTask : s.tmrTask = t.tmrTask
  serving : s.serving = t.serving
  inputs : s.inputs = t.inputs
  later : s.later = t.later
  trace : s.trace = t.trace
  freeCount : s.freeCount = t.freeCount

/-- What one primitive may do to a buffer with contents `l` (41 R125, 20 R66): nothing, one byte in at the tail, one byte out at the
head, or everything discarded. -/
inductive QueueMove : List Byte → List Byte → Prop where
  | same (l : List Byte) : QueueMove l l
  | append (l : List Byte) (b : Byte) : QueueMove l (l ++ [b])
  | remove (b : Byte) (l : List Byte) : QueueMove (b :: l) l
  | discard (l : List Byte) : QueueMove l []

end Sys2Proof.Machine
end

