-- ==== Sys2Proof/Certificates/Slice0/Obligations.lean ====
section
/-! DEFINITION. The statements for the provers. Each docstring names the rule of the spec it formalises; `C` is
`s.params.capacity`, the contents of a buffer are `Ring.contents` (10 R24). -/

section

open Sys2Proof Sys2Proof.Machine

/-! ### Reset and the invariant -/

/-- 10 R43, R31, R32; 70 R242: what reset leaves, in every legal configuration. That unwritten cells hold no value is the
model's form of "unspecified" (log 4); the values of the model's own fields are its choice (log 18). -/
def Obligations.ResetLeavesSpecifiedState : Prop :=
  (∀ p : Params, p.Legal →
    (State.init p).params = p ∧
    (∀ x, ((State.init p).ring x).start = 0 ∧ ((State.init p).ring x).endp = 0 ∧ ((State.init p).ring x).count = 0 ∧
      ∀ a, Memory.read ((State.init p).ring x).mem a = none) ∧
    (State.init p).fa.state = .awaitCommand ∧
    (State.init p).armed = false ∧
    (State.init p).outstanding = [] ∧
    (State.init p).status =
      { rxCount := 0, txCount := 0, rxEmpty := true, rxFull := false, txEmpty := true, txFull := false, tpIdle := true }) ∧
  (∃ p : Params, p.Legal ∧ p.capacity = 256 ∧ State.reset = State.init p)

/-- 10 R23, R40; 44 R181: the invariant of the core, the state of a core in service and the framing of the transmitted bytes hold
after reset in every legal configuration. -/
def Obligations.ResetMeetsInvariants : Prop :=
  State.reset.Inv ∧
  ∀ p : Params, p.Legal → (State.init p).Inv ∧ (State.init p).Service ∧ (State.init p).WholeFrames

/-- 10 R23, R40; 60 R205: every primitive, in every state that meets the invariant, keeps it. -/
def Obligations.StepKeepsInvariant : Prop :=
  ∀ s t : State, s.Inv → step s = .next t → t.Inv

/-- 60 R205, 10 R40: "There is no fatal error class inside this core": from a state that meets the invariant every step answers a
next state, whatever the agents ask for. -/
def Obligations.StepNeverStops : Prop :=
  ∀ s : State, s.Inv → ∃ t, step s = .next t

/-- 60 R205, 30 R104: no inputs, of any agents and any command words, a list or without end, wedge the core after reset. -/
def Obligations.NoRunStops : Prop :=
  ∀ (p : Params) (inputs : List Input) (later : Later) (k : Nat), p.Legal →
    ∃ t : State, Host.Core.run Sys2Proof.core k { State.init p with inputs := inputs, later := later } = .next t ∧ t.Inv

/-- 10 R23: the invariant of each buffer in the spec's own congruence form, after reset and after every step, and its consequence
for equal pointers. -/
def Obligations.RingCongruenceAfterEveryStep : Prop :=
  (∀ (p : Params) (x : RingId), p.Legal →
    (((State.init p).ring x).endp - ((State.init p).ring x).start : Int) % p.capacity = ((State.init p).ring x).count % p.capacity ∧
    ((State.init p).ring x).count ≤ p.capacity ∧
    ((State.init p).ring x).start < p.capacity ∧ ((State.init p).ring x).endp < p.capacity) ∧
  ∀ (s t : State) (x : RingId), s.Inv → step s = .next t →
    ((t.ring x).endp - (t.ring x).start : Int) % t.params.capacity = (t.ring x).count % t.params.capacity ∧
    (t.ring x).count ≤ t.params.capacity ∧
    (t.ring x).start < t.params.capacity ∧ (t.ring x).endp < t.params.capacity ∧
    ((t.ring x).start = (t.ring x).endp ↔ (t.ring x).count = 0 ∨ (t.ring x).count = t.params.capacity)

/-! ### The ring buffers -/

/-- 41 R120: `INIT`, with its encoding. -/
def Obligations.InitEmptiesBuffer : Prop :=
  encode .rxbInit = 0x0000000000#40 ∧ encode .txbInit = 0x1000000000#40 ∧
  ∀ (x : RingId) (s : State), s.params.Legal →
    ∃ r, exec (initOf x) s =
        .next { s.setRing x r with trace := s.trace ++ [.response s.serving { ok := true }] } ∧
      r.start = 0 ∧ r.endp = 0 ∧ r.count = 0 ∧
      (∀ a, Memory.read r.mem a = Memory.read (s.ring x).mem a) ∧
      r.isEmpty = true ∧ r.isFull s.params.capacity = false ∧ r.contents s.params.capacity = []

/-- 41 R121: `PUT`, both arms, with its encoding. -/
def Obligations.PutStoresAtEnd : Prop :=
  (∀ a, encode (.rxbPut a) = packCommand 0x01 a 0 0 0 ∧ encode (.txbPut a) = packCommand 0x11 a 0 0 0) ∧
  ∀ (x : RingId) (a : Byte) (s : State), (s.ring x).Wf s.params.capacity →
    ((s.ring x).count = s.params.capacity →
      exec (putOf a x) s = .next { s with trace := s.trace ++ [.response s.serving { ok := false, cond := .bufferFull }] }) ∧
    ((s.ring x).count ≠ s.params.capacity →
      ∃ r, exec (putOf a x) s =
          .next { s.setRing x r with trace := s.trace ++ [.response s.serving { ok := true }] } ∧
        r.start = (s.ring x).start ∧ r.endp = ((s.ring x).endp + 1) % s.params.capacity ∧
        r.count = (s.ring x).count + 1 ∧
        Memory.read r.mem (s.ring x).endp = some a ∧
        (∀ k, k ≠ (s.ring x).endp → Memory.read r.mem k = Memory.read (s.ring x).mem k) ∧
        r.isEmpty = false ∧ (r.isFull s.params.capacity = true ↔ (s.ring x).count + 1 = s.params.capacity))

/-- 41 R122: `GET`, both arms, with its encoding. -/
def Obligations.GetReturnsOldestByte : Prop :=
  encode .rxbGet = 0x0200000000#40 ∧ encode .txbGet = 0x1200000000#40 ∧
  ∀ (x : RingId) (s : State), (s.ring x).Wf s.params.capacity →
    ((s.ring x).count = 0 →
      exec (getOf x) s = .next { s with trace := s.trace ++ [.response s.serving { ok := false, cond := .bufferEmpty }] }) ∧
    ((s.ring x).count ≠ 0 →
      ∃ r v, exec (getOf x) s =
          .next { s.setRing x r with trace := s.trace ++ [.response s.serving { ok := true, d0 := v }] } ∧
        Memory.read (s.ring x).mem (s.ring x).start = some v ∧
        r.start = ((s.ring x).start + 1) % s.params.capacity ∧ r.endp = (s.ring x).endp ∧
        r.count = (s.ring x).count - 1 ∧
        (∀ k, Memory.read r.mem k = Memory.read (s.ring x).mem k) ∧
        r.isFull s.params.capacity = false ∧ (r.isEmpty = true ↔ (s.ring x).count = 1))

/-- 41 R125, R126, R128: the queue law on the contents, with the responses. -/
def Obligations.ContentsFollowQueueLaw : Prop :=
  ∀ (x : RingId) (s : State), (s.ring x).Wf s.params.capacity →
    (∃ t, exec (initOf x) s = .next t ∧ (t.ring x).contents s.params.capacity = []) ∧
    (∀ a, ∃ t, exec (putOf a x) s = .next t ∧
      (t.ring x).contents s.params.capacity =
        (if ((s.ring x).contents s.params.capacity).length < s.params.capacity then
          (s.ring x).contents s.params.capacity ++ [a]
        else (s.ring x).contents s.params.capacity) ∧
      t.trace = s.trace ++ [.response s.serving
        (if ((s.ring x).contents s.params.capacity).length < s.params.capacity then { ok := true }
        else { cond := .bufferFull })]) ∧
    (∃ t, exec (getOf x) s = .next t ∧
      (t.ring x).contents s.params.capacity = ((s.ring x).contents s.params.capacity).tail ∧
      t.trace = s.trace ++ [.response s.serving
        (match (s.ring x).contents s.params.capacity with
        | [] => { cond := .bufferEmpty }
        | v :: _ => { ok := true, d0 := v })])

/-- 20 R73, 41 R125: under any list of `PUT`s and `GET`s the bytes returned are, in order, those stored: none lost, invented or
moved; from an initialised buffer they are a prefix of them; and `n <= C` stored bytes come out by the next `n` `GET`s. -/
def Obligations.PutsAndGetsAreFifo : Prop :=
  (∀ (C : Nat) (r : Ring) (ops : List RingOp), r.Wf C →
    ∃ r' stored returned, runRing C r ops = .ok (r', stored, returned) ∧ r'.Wf C ∧
      r.contents C ++ stored = returned ++ r'.contents C ∧
      (r.contents C = [] → returned <+: stored)) ∧
  ∀ (C : Nat) (r : Ring) (bs : List Byte), r.Wf C → r.count = 0 → bs.length ≤ C →
    ∃ r', runRing C r (bs.map .put ++ List.replicate bs.length .get) = .ok (r', bs, bs)

/-- 10 R31: the flags say exactly when `PUT` and `GET` fail, are never both set, and stand as given after reset; the observable status
(10 R37) shows the counts, the flags and `tp.idle` of every state. -/
def Obligations.FlagsSayWhenPutAndGetFail : Prop :=
  (∀ (x : RingId) (a : Byte) (s : State), (s.ring x).Wf s.params.capacity →
    ((s.ring x).isEmpty = true ↔ (s.ring x).count = 0) ∧
    ((s.ring x).isFull s.params.capacity = true ↔ (s.ring x).count = s.params.capacity) ∧
    ¬((s.ring x).isEmpty = true ∧ (s.ring x).isFull s.params.capacity = true) ∧
    (∃ t q, exec (putOf a x) s = .next t ∧ t.trace = s.trace ++ [.response s.serving q] ∧
      (q.ok = false ↔ (s.ring x).isFull s.params.capacity = true)) ∧
    (∃ t q, exec (getOf x) s = .next t ∧ t.trace = s.trace ++ [.response s.serving q] ∧
      (q.ok = false ↔ (s.ring x).isEmpty = true))) ∧
  (∀ (p : Params) (x : RingId), p.Legal →
    ((State.init p).ring x).isEmpty = true ∧ ((State.init p).ring x).isFull p.capacity = false) ∧
  (∀ s : State,
    s.status.rxCount = s.rx.count ∧ s.status.txCount = s.tx.count ∧
    (s.status.rxEmpty = true ↔ s.rx.count = 0) ∧ (s.status.rxFull = true ↔ s.rx.count = s.params.capacity) ∧
    (s.status.txEmpty = true ↔ s.tx.count = 0) ∧ (s.status.txFull = true ↔ s.tx.count = s.params.capacity) ∧
    (s.status.tpIdle = true ↔ s.armed = false))

/-- 20 R66, 41 R125: one primitive moves each buffer by at most one byte at one end, or discards its contents. -/
def Obligations.StepIsOneQueueMove : Prop :=
  ∀ (s t : State) (x : RingId), s.Inv → step s = .next t →
    QueueMove ((s.ring x).contents s.params.capacity) ((t.ring x).contents t.params.capacity)

/-- 20 R75: a `PUT` and a `GET` at the same step, in both orders, on a full and on an empty buffer; both orders are runs of the machine,
for any two agents with nothing under way (that the order is that of the list of inputs is log 2). -/
def Obligations.BothOrdersOfPutAndGet : Prop :=
  (∀ (x : RingId) (a : Byte) (s : State), (s.ring x).Wf s.params.capacity →
    ((s.ring x).count = s.params.capacity →
      (∃ s1 s2 v, exec (getOf x) s = .next s1 ∧ exec (putOf a x) s1 = .next s2 ∧
        s2.trace = s.trace ++ [.response s.serving { ok := true, d0 := v }, .response s.serving { ok := true }]) ∧
      (∃ s1 s2 v, exec (putOf a x) s = .next s1 ∧ exec (getOf x) s1 = .next s2 ∧
        s2.trace = s.trace ++ [.response s.serving { cond := .bufferFull }, .response s.serving { ok := true, d0 := v }])) ∧
    ((s.ring x).count = 0 →
      (∃ s1 s2, exec (putOf a x) s = .next s1 ∧ exec (getOf x) s1 = .next s2 ∧
        s2.trace = s.trace ++ [.response s.serving { ok := true }, .response s.serving { ok := true, d0 := a }]) ∧
      (∃ s1 s2, exec (getOf x) s = .next s1 ∧ exec (putOf a x) s1 = .next s2 ∧
        s2.trace = s.trace ++ [.response s.serving { cond := .bufferEmpty }, .response s.serving { ok := true }]))) ∧
  ∀ (x : RingId) (v : Byte) (a b : Agent) (rest : List Input) (s : State),
    s.params.Legal → (s.ring x).Wf s.params.capacity → s.task a = none → s.task b = none →
    ((s.ring x).count = s.params.capacity →
      (s.inputs = .request b (encode (getOf x)) :: .request a (encode (putOf v x)) :: rest →
        ∃ t u, Host.Core.run Sys2Proof.core 2 s = .next t ∧ t.inputs = rest ∧
          t.trace = s.trace ++ [.response b { ok := true, d0 := u }, .response a { ok := true }]) ∧
      (s.inputs = .request a (encode (putOf v x)) :: .request b (encode (getOf x)) :: rest →
        ∃ t u, Host.Core.run Sys2Proof.core 2 s = .next t ∧ t.inputs = rest ∧
          t.trace = s.trace ++ [.response a { cond := .bufferFull }, .response b { ok := true, d0 := u }])) ∧
    ((s.ring x).count = 0 →
      (s.inputs = .request a (encode (putOf v x)) :: .request b (encode (getOf x)) :: rest →
        ∃ t, Host.Core.run Sys2Proof.core 2 s = .next t ∧ t.inputs = rest ∧
          t.trace = s.trace ++ [.response a { ok := true }, .response b { ok := true, d0 := v }]) ∧
      (s.inputs = .request b (encode (getOf x)) :: .request a (encode (putOf v x)) :: rest →
        ∃ t, Host.Core.run Sys2Proof.core 2 s = .next t ∧ t.inputs = rest ∧
          t.trace = s.trace ++ [.response b { cond := .bufferEmpty }, .response a { ok := true }]))

/-- 20 R74: a primitive on `rx` and a primitive on `tx` commute: done in either order they leave the same state, but for the order
of what they put in the trace. -/
def Obligations.RxAndTxPrimitivesCommute : Prop :=
  ∀ (i j : Instr) (s : State), s.Inv → rxPrimitive i = true → txPrimitive j = true →
    ∃ s1 s2 t1 t2 oi oj,
      exec i s = .next s1 ∧ exec j s1 = .next s2 ∧ exec j s = .next t1 ∧ exec i t1 = .next t2 ∧
      t2 = { s2 with trace := t2.trace } ∧
      s2.trace = s.trace ++ oi ++ oj ∧ t2.trace = s.trace ++ oj ++ oi

/-! ### The FrameAssembler -/

/-- 42 R140: `FA_INIT` fixes the state and touches nothing else of the core; the window it leaves is whatever it is. That the counter of
free values moves on by 5 is the model's choice (log 3). -/
def Obligations.FaInitRestartsAssembler : Prop :=
  encode .faInit = 0x2000000000#40 ∧ ∀ s : State, ∃ w, exec .faInit s =
    .next { s with
      fa := { state := .awaitCommand, window := w }
      freeCount := s.freeCount + 5
      trace := s.trace ++ [.response s.serving { ok := true }] }

/-- 42 R150, R144: the transition table of the automaton, row by row, through `FA_STEP`, `FA_INIT` and `RESET`. -/
def Obligations.AssemblerTransitionTable : Prop :=
  (∀ s : State, s.rx.Wf s.params.capacity → s.rx.count = 0 →
    exec .faStep s = .next { s with trace := s.trace ++ [.response s.serving { ok := false, cond := .bufferEmpty }] }) ∧
  (∀ (s : State) (b : Byte) (bs : List Byte), s.rx.Wf s.params.capacity → s.rx.contents s.params.capacity = b :: bs →
    ∃ r : Ring, r.contents s.params.capacity = bs ∧
      r = { s.rx with start := (s.rx.start + 1) % s.params.capacity, count := s.rx.count - 1 } ∧
      (s.fa.state = .awaitCommand → exec .faStep s = .next { s with
        rx := r, fa := { state := .awaitParam1, window := { s.fa.window with command := b } }
        trace := s.trace ++ [.response s.serving { ok := true, consumed := true }] }) ∧
      (s.fa.state = .awaitParam1 → exec .faStep s = .next { s with
        rx := r, fa := { state := .awaitParam2, window := { s.fa.window with param1 := b } }
        trace := s.trace ++ [.response s.serving { ok := true, consumed := true }] }) ∧
      (s.fa.state = .awaitParam2 → exec .faStep s = .next { s with
        rx := r, fa := { state := .awaitParam3, window := { s.fa.window with param2 := b } }
        trace := s.trace ++ [.response s.serving { ok := true, consumed := true }] }) ∧
      (s.fa.state = .awaitParam3 → exec .faStep s = .next { s with
        rx := r, fa := { state := .awaitChecksum, window := { s.fa.window with param3 := b } }
        trace := s.trace ++ [.response s.serving { ok := true, consumed := true }] }) ∧
      (s.fa.state = .awaitChecksum →
        b = s.fa.window.command ^^^ s.fa.window.param1 ^^^ s.fa.window.param2 ^^^ s.fa.window.param3 →
        exec .faStep s = .next { s with
          rx := r, fa := { state := .awaitCommand, window := { s.fa.window with checksum := b } }
          trace := s.trace ++
            [.frame s.fa.window.command s.fa.window.param1 s.fa.window.param2 s.fa.window.param3,
             .response s.serving { ok := true, valid := true, consumed := true, d0 := s.fa.window.command
                                   d1 := s.fa.window.param1, d2 := s.fa.window.param2, d3 := s.fa.window.param3, d4 := b }] }) ∧
      (s.fa.state = .awaitChecksum →
        b ≠ s.fa.window.command ^^^ s.fa.window.param1 ^^^ s.fa.window.param2 ^^^ s.fa.window.param3 →
        exec .faStep s = .next { s with
          rx := r
          fa := { state := .awaitChecksum
                  window := { command := s.fa.window.param1, param1 := s.fa.window.param2
                              param2 := s.fa.window.param3, param3 := b, checksum := b } }
          trace := s.trace ++ [.response s.serving { ok := true, consumed := true, cond := .checksumMismatch }] })) ∧
  (∀ s : State, (∃ t, exec .faInit s = .next t ∧ t.fa.state = .awaitCommand) ∧
    ∃ t, exec .reset s = .next t ∧ t.fa.state = .awaitCommand)

/-- 42 R147: from `AwaitCommand`, the bytes of valid frames one after another give exactly those frames, each on its fifth byte, and
lead back to `AwaitCommand`. -/
def Obligations.AlignedFramesAreRecognised : Prop :=
  ∀ (fa : Assembler) (fs : List Frame5), fa.state = .awaitCommand → (∀ f ∈ fs, f.Valid) →
    (feed fa (fs.flatMap wireBytes)).2 = fs ∧ (feed fa (fs.flatMap wireBytes)).1.state = .awaitCommand ∧
    ∀ f, (feed fa ((wireBytes f).take 4)).2 = []

/-- 42 R149: the window after `n` bytes without a match, and when the next byte produces a frame. -/
def Obligations.WindowHoldsTheLastBytes : Prop :=
  ∀ (fa : Assembler) (bs : List Byte), fa.state = .awaitCommand → (feed fa bs).2 = [] →
    (bs.length ≤ 3 →
      (faStateCode (feed fa bs).1.state).toNat = bs.length ∧ (feed fa bs).1.liveWindow = bs) ∧
    (4 ≤ bs.length →
      (feed fa bs).1.state = .awaitChecksum ∧ (feed fa bs).1.liveWindow = bs.drop (bs.length - 4)) ∧
    ∀ b, (∃ f, (accept (feed fa bs).1 b).2 = .frame f) ↔
      4 ≤ bs.length ∧ b = (bs.drop (bs.length - 4)).foldl (· ^^^ ·) 0

/-- 42 R146: one turn of `TRY_GET_FRAME` is one `FA_STEP`: it returns the frame, returns `BUFFER_EMPTY`, or goes on. -/
def Obligations.TryGetFrameTakesOneStep : Prop :=
  ∀ s : State, s.rx.Wf s.params.capacity →
    (s.rx.count = 0 → exec .tryGetFrame s = .next { s.setTask s.serving none with
      trace := s.trace ++ [.response s.serving { cond := .bufferEmpty }] }) ∧
    ∀ (b : Byte) (bs : List Byte), s.rx.contents s.params.capacity = b :: bs →
      ∃ r : Ring, r.contents s.params.capacity = bs ∧
        r = { s.rx with start := (s.rx.start + 1) % s.params.capacity, count := s.rx.count - 1 } ∧
        (∀ f, (accept s.fa b).2 = .frame f → exec .tryGetFrame s = .next { s.setTask s.serving none with
          rx := r
          fa := (accept s.fa b).1
          trace := s.trace ++ [.frame f.command f.param1 f.param2 f.param3,
            .response s.serving { ok := true, valid := true, consumed := true, d0 := f.command, d1 := f.param1
                                  d2 := f.param2, d3 := f.param3, d4 := f.checksum }] }) ∧
        ((∀ f, (accept s.fa b).2 ≠ .frame f) → exec .tryGetFrame s = .next { s.setTask s.serving (some .tryGetFrame) with
          rx := r
          fa := (accept s.fa b).1 })

/-- 42 R151, R146: `k` bytes that belong to no frame, then a valid frame, no earlier window valid: `TRY_GET_FRAME`, undisturbed,
returns the frame after exactly `k + 5` bytes and leaves the bytes behind it. That one step is one byte while nothing else is asked
for is the model's choice (log 2). -/
def Obligations.TryGetFrameResynchronises : Prop :=
  ∀ (s : State) (w : CommandWord) (junk rest : List Byte) (f : Frame5),
    s.Inv → s.inputs = [.request .poll w] → s.later = .silent → decode w = .ok .tryGetFrame →
    s.pollTask = none → s.rxiTask = none → s.tmrTask = none →
    s.fa.state = .awaitCommand → f.Valid →
    s.rx.contents s.params.capacity = junk ++ wireBytes f ++ rest →
    (feed s.fa (junk ++ (wireBytes f).take 4)).2 = [] →
    ∃ t : State, Host.Core.run Sys2Proof.core (junk.length + 5) s = .next t ∧
      t.rx.contents s.params.capacity = rest ∧ t.fa.state = .awaitCommand ∧
      t = { s with
        rx := t.rx
        fa := t.fa
        serving := .poll
        inputs := []
        trace := s.trace ++ [.frame f.command f.param1 f.param2 f.param3,
          .response .poll { ok := true, valid := true, consumed := true, d0 := f.command, d1 := f.param1
                            d2 := f.param2, d3 := f.param3, d4 := f.checksum }] }

/-- 42 R146, R144, 70 R259: with no frame in the bytes at hand `TRY_GET_FRAME`, undisturbed, consumes them all, answers
`BUFFER_EMPTY` and leaves the assembler parked where they led it. The count of steps rests on log 2. -/
def Obligations.TryGetFrameParksWithoutFrame : Prop :=
  ∀ (s : State) (w : CommandWord), s.Inv → s.inputs = [.request .poll w] → s.later = .silent → decode w = .ok .tryGetFrame →
    s.pollTask = none → s.rxiTask = none → s.tmrTask = none →
    (feed s.fa (s.rx.contents s.params.capacity)).2 = [] →
    ∃ t : State, Host.Core.run Sys2Proof.core (s.rx.count + 1) s = .next t ∧
      t.rx.contents s.params.capacity = [] ∧ t.fa = (feed s.fa (s.rx.contents s.params.capacity)).1 ∧
      t = { s with
        rx := t.rx
        fa := t.fa
        serving := .poll
        inputs := []
        trace := s.trace ++ [.response .poll { cond := .bufferEmpty }] }

/-- 42 R146, 70 R259: `TRY_GET_FRAME` returns when finitely many bytes arrive: whatever `rx` holds and whichever receive events follow,
it answers `POLL`. The bound on the steps rests on log 2. -/
def Obligations.TryGetFrameReturnsOnFiniteInput : Prop :=
  ∀ (s : State) (w : CommandWord) (bytes : List (Option Byte)),
    s.Inv → s.inputs = .request .poll w :: bytes.map .rxEvent → s.later = .silent → decode w = .ok .tryGetFrame →
    s.pollTask = none → s.rxiTask = none → s.tmrTask = none →
    ∃ (k : Nat) (t : State) (q : Response), 0 < k ∧ k ≤ s.rx.count + 2 * bytes.length + 1 ∧
      Host.Core.run Sys2Proof.core k s = .next t ∧ t.pollTask = none ∧ t.trace.getLast? = some (.response .poll q)

/-- 42 R146, 70 R259, 93 U13: `TRY_GET_FRAME` need not return: while the same byte, not 0, goes on arriving as fast as it is taken, no
window is ever a frame, `rx` is never found empty and the operation is under way after every step. That the outside can go on so
is `Later.again` (log 20). -/
def Obligations.TryGetFrameNeedNotReturn : Prop :=
  ∀ (s : State) (w : CommandWord) (b : Byte),
    s.Inv → s.inputs = [.request .poll w] → s.later = .again [.rxEvent (some b), .resume .poll] →
    decode w = .ok .tryGetFrame → s.pollTask = none → s.rxiTask = none →
    s.fa.state = .awaitCommand → s.rx.contents s.params.capacity = [b] → b ≠ 0 →
    ∀ k : Nat, ∃ t : State, Host.Core.run Sys2Proof.core (k + 1) s = .next t ∧ t.pollTask = some .tryGetFrame

/-! ### The FrameEncoder -/

/-- 43 R160: `FE_ENCODE`, with its encoding: a pure function of its operands. -/
def Obligations.FeEncodeAnswersWireBytes : Prop :=
  (∀ a b c d, encode (.feEncode a b c d) = packCommand 0x30 a b c d) ∧
  ∀ (a b c d : Byte) (s : State), exec (.feEncode a b c d) s = .next { s with
    trace := s.trace ++ [.response s.serving { ok := true, d0 := a, d1 := b, d2 := c, d3 := d, d4 := a ^^^ b ^^^ c ^^^ d }] }

/-- 30 R100: the identities of the wire frame. -/
def Obligations.FrameIdentities : Prop :=
  (∀ c p1 p2 p3 : Byte, decodeFrame (encodeFrame c p1 p2 p3) = some (c, p1, p2, p3)) ∧
  (∀ c p1 p2 p3 : Byte, cks c p1 p2 p3 ^^^ c ^^^ p1 ^^^ p2 ^^^ p3 = 0x00) ∧
  (∀ (f : Frame5) (i : Fin 5) (x : Byte), f.Valid → x ≠ 0 → decodeFrame (f.flip i x) = none) ∧
  (∀ (f : Frame5) (i j : Fin 5) (x : Byte), f.Valid → i ≠ j → ((f.flip i x).flip j x).Valid)

/-- 43 R161, R165: the reservation test of `FE_PUT_FRAME`, its first primitive: no byte stored either way; with `C < 5` it always
refuses; with `C = 5` it accepts only into an empty `tx`. -/
def Obligations.FePutFrameReservesFirst : Prop :=
  ∀ (a b c d : Byte) (s : State),
    (s.tx.count + 5 ≤ s.params.capacity → exec (.fePutFrame a b c d) s =
      .next (s.setTask s.serving (some (.putFrame (encodeFrame a b c d) 0 false)))) ∧
    (s.params.capacity < s.tx.count + 5 → exec (.fePutFrame a b c d) s =
      .next { s.setTask s.serving none with trace := s.trace ++ [.response s.serving { cond := .bufferFull }] }) ∧
    (s.params.capacity < 5 → exec (.fePutFrame a b c d) s =
      .next { s.setTask s.serving none with trace := s.trace ++ [.response s.serving { cond := .bufferFull }] }) ∧
    (s.params.capacity = 5 → s.tx.count ≠ 0 → exec (.fePutFrame a b c d) s =
      .next { s.setTask s.serving none with trace := s.trace ++ [.response s.serving { cond := .bufferFull }] })

/-- 43 R161, R163: storing byte `i` of a frame: one `TXB_PUT`; after the fifth the response; a full buffer ends it with `d0 = i`. -/
def Obligations.PutFrameTurnStoresOneByte : Prop :=
  ∀ (e : Frame5) (i : Fin 5) (thenArm : Bool) (s : State), s.tx.Wf s.params.capacity →
    (s.tx.count = s.params.capacity → putFrameTurn e i thenArm s = .next { s.setTask s.serving none with
      trace := s.trace ++ [.response s.serving { cond := .bufferFull, d0 := BitVec.ofNat 8 i.val }] }) ∧
    (s.tx.count ≠ s.params.capacity → ∃ r,
      r.contents s.params.capacity = s.tx.contents s.params.capacity ++ (wireBytes e)[i.val]?.toList ∧
      (i.val < 4 → ∃ j : Fin 5, j.val = i.val + 1 ∧ putFrameTurn e i thenArm s =
        .next { s.setTask s.serving (some (.putFrame e j thenArm)) with tx := r }) ∧
      (i.val = 4 → putFrameTurn e i thenArm s =
        .next { s.setTask s.serving (if thenArm then some .arm else none) with
          tx := r
          trace := s.trace ++ [.response s.serving { ok := true }] }))

/-- 43 R162, R161, R164: `FE_PUT_FRAME`, undisturbed: six primitives put the five bytes behind what `tx` held and answer `ok = 1`, the
pacer as it was; without room one primitive answers `BUFFER_FULL` and `tx` is exactly as it was. The count of steps rests on log 2. -/
def Obligations.FePutFrameIsAllOrNothing : Prop :=
  ∀ (s : State) (w : CommandWord) (a b c d : Byte),
    s.Inv → s.inputs = [.request .poll w] → s.later = .silent → decode w = .ok (.fePutFrame a b c d) →
    s.pollTask = none → s.rxiTask = none → s.tmrTask = none →
    (s.tx.count + 5 ≤ s.params.capacity →
      ∃ t : State, Host.Core.run Sys2Proof.core 6 s = .next t ∧
        t.tx.contents s.params.capacity = s.tx.contents s.params.capacity ++ [a, b, c, d, a ^^^ b ^^^ c ^^^ d] ∧
        t = { s with
          tx := t.tx, serving := .poll, inputs := []
          trace := s.trace ++ [.response .poll { ok := true }] }) ∧
    (s.params.capacity < s.tx.count + 5 →
      Host.Core.run Sys2Proof.core 1 s = .next { s with
        serving := .poll, inputs := []
        trace := s.trace ++ [.response .poll { cond := .bufferFull }] })

/-- 30 R109, 70 R254: `SEND`, undisturbed: the frame stored, then the pacer armed (or found armed); when the frame is refused the
pacer is left alone. That its agent carries it out, one primitive a step, is log 10; that it goes on when nothing is asked for, log 2. -/
def Obligations.SendStoresThenArms : Prop :=
  ∀ (s : State) (a b c d : Byte),
    s.Inv → s.inputs = [.send .poll a b c d] → s.later = .silent → s.pollTask = none → s.rxiTask = none → s.tmrTask = none →
    (s.tx.count + 5 ≤ s.params.capacity →
      ∃ t : State, Host.Core.run Sys2Proof.core 7 s = .next t ∧
        t.tx.contents s.params.capacity = s.tx.contents s.params.capacity ++ [a, b, c, d, a ^^^ b ^^^ c ^^^ d] ∧
        t = { s with
          tx := t.tx, serving := .poll, inputs := [], armed := true
          outstanding := s.outstanding ++ (if s.armed then [] else [s.params.armDelay])
          trace := s.trace ++ [.response .poll { ok := true }] ++
            (if s.armed then [.response .poll { cond := .pacerBusy }]
            else [.sched s.params.armDelay, .response .poll { ok := true, sched := true }]) }) ∧
    (s.params.capacity < s.tx.count + 5 →
      Host.Core.run Sys2Proof.core 1 s = .next { s with
        serving := .poll, inputs := []
        trace := s.trace ++ [.response .poll { cond := .bufferFull }] })

/-! ### The TransmitPacer -/

/-- 44 R175: `TP_INIT`, with its encoding; the timer service keeps what it holds. -/
def Obligations.TpInitIdlesPacer : Prop :=
  encode .tpInit = 0x4000000000#40 ∧ ∀ s : State, exec .tpInit s = .next { s with
    armed := false, trace := s.trace ++ [.response s.serving { ok := true }] }

/-- 44 R176, R177, R179: `TP_FIRE`, both arms, in every state of the pacer. -/
def Obligations.TpFireSendsOldestByte : Prop :=
  encode .tpFire = 0x4100000000#40 ∧
  ∀ s : State, s.tx.Wf s.params.capacity →
    (s.tx.count = 0 → exec .tpFire s = .next { s with
      armed := false, trace := s.trace ++ [.response s.serving { ok := false, cond := .bufferEmpty }] }) ∧
    ∀ (b : Byte) (bs : List Byte), s.tx.contents s.params.capacity = b :: bs →
      ∃ r : Ring, r.contents s.params.capacity = bs ∧
        r = { s.tx with start := (s.tx.start + 1) % s.params.capacity, count := s.tx.count - 1 } ∧
        exec .tpFire s = .next { s with
          tx := r
          armed := true
          outstanding := s.outstanding ++ [10 * s.params.busClock / s.params.baudRate]
          trace := s.trace ++ [.tx b, .sched (10 * s.params.busClock / s.params.baudRate),
            .response s.serving { ok := true, txb := true, sched := true, d0 := b }] }

/-- 44 R178: `TP_ARM`, both arms. -/
def Obligations.TpArmIsTestAndSet : Prop :=
  encode .tpArm = 0x4200000000#40 ∧
  ∀ s : State,
    (s.armed = true → exec .tpArm s = .next { s with
      trace := s.trace ++ [.response s.serving { ok := false, cond := .pacerBusy }] }) ∧
    (s.armed = false → exec .tpArm s = .next { s with
      armed := true
      outstanding := s.outstanding ++ [s.params.armDelay]
      trace := s.trace ++ [.sched s.params.armDelay, .response s.serving { ok := true, sched := true }] })

/-- 44 R180, R181: the chain: `n` bytes waiting and one event outstanding are `n + 1` deliveries, which send the bytes in order, ask
for an event after each, and end with the pacer idle and nothing outstanding, whatever the other agents do next. -/
def Obligations.PacerChainDrainsTx : Prop :=
  ∀ (s : State) (bs : List Byte) (d : Nat) (rest : List Input),
    s.Inv → s.tmrTask = none → s.tx.contents s.params.capacity = bs → s.outstanding = [d] →
    s.inputs = List.replicate (bs.length + 1) (.timerEvent 0) ++ rest →
    ∃ t : State, Host.Core.run Sys2Proof.core (bs.length + 1) s = .next t ∧
      t.tx.contents s.params.capacity = [] ∧
      t = { s with
        tx := t.tx
        armed := false
        outstanding := []
        serving := .tmr
        inputs := rest
        trace := s.trace ++ bs.flatMap (fun b => [.tx b, .sched (bytePeriod s.params),
            .response .tmr { ok := true, txb := true, sched := true, d0 := b }]) ++
          [.response .tmr { cond := .bufferEmpty }] }

/-- 30 R110: `DRAIN`, undisturbed, writes out the chain; that each fire takes the outstanding event is the model's reading (log 10), that
`TMR` goes on when nothing is asked for its choice (log 2). -/
def Obligations.DrainRunsTheChain : Prop :=
  ∀ (s : State) (bs : List Byte) (d : Nat),
    s.Inv → s.pollTask = none → s.rxiTask = none → s.tmrTask = none →
    s.tx.contents s.params.capacity = bs → s.outstanding = [d] → s.inputs = [.drain] → s.later = .silent →
    ∃ t : State, Host.Core.run Sys2Proof.core (bs.length + 1) s = .next t ∧
      t.tx.contents s.params.capacity = [] ∧
      t = { s with
        tx := t.tx
        armed := false
        outstanding := []
        serving := .tmr
        inputs := []
        trace := s.trace ++ bs.flatMap (fun b => [.tx b, .sched (bytePeriod s.params),
            .response .tmr { ok := true, txb := true, sched := true, d0 := b }]) ++
          [.response .tmr { cond := .bufferEmpty }] }

/-- 00 R9: `BYTE_PERIOD` is the quotient of `10 * BUS_CLOCK` by `BAUD_RATE` rounded toward zero. -/
def Obligations.BytePeriodIsRoundedQuotient : Prop :=
  ∀ p : Params, p.Legal →
    bytePeriod p * p.baudRate ≤ 10 * p.busClock ∧ 10 * p.busClock < (bytePeriod p + 1) * p.baudRate

/-! ### RESET, frames, constants -/

/-- 70 R240: `RESET`, and the reset input of the block, on any state: the four initialisations as one primitive, the stores, the timer
service and the agents' unfinished operations as they were. That the reset input answers no response and leaves the agents' operations
is the model's reading (log 8), the counter of free values its own (log 3). -/
def Obligations.ResetIsFourInits : Prop :=
  encode .reset = 0xFF00000000#40 ∧
  ∀ s : State, s.params.Legal →
    ∃ t w, exec .reset s = .next { t with trace := s.trace ++ [.response s.serving { ok := true }] } ∧
      (∀ rest, s.inputs = .resetLine :: rest → step s = .next { t with inputs := rest }) ∧
      t = { s with
        rx := { s.rx with start := 0, endp := 0, count := 0 }
        tx := { s.tx with start := 0, endp := 0, count := 0 }
        fa := { state := .awaitCommand, window := w }
        armed := false
        freeCount := s.freeCount + 5 } ∧
      t.status =
        { rxCount := 0, txCount := 0, rxEmpty := true, rxFull := false, txEmpty := true, txFull := false, tpIdle := true }

/-- 10 R27, R30, R39, 20 R60, R70: the frame of every operation: what it may change of the state, and that no cell changes but the one
at `X.end` that a `PUT` with room stores to. -/
def Obligations.OperationsChangeOnlyTheirUnit : Prop :=
  ∀ (i : Instr) (s t : State), exec i s = .next t →
    (match i with
    | .rxbInit => t = { s with rx := t.rx, trace := t.trace }
    | .rxbPut _ => t = { s with rx := t.rx, trace := t.trace }
    | .rxbGet => t = { s with rx := t.rx, trace := t.trace }
    | .txbInit => t = { s with tx := t.tx, trace := t.trace }
    | .txbPut _ => t = { s with tx := t.tx, trace := t.trace }
    | .txbGet => t = { s with tx := t.tx, trace := t.trace }
    | .faInit => t = { s with fa := t.fa, freeCount := t.freeCount, trace := t.trace }
    | .faStep => t = { s with rx := t.rx, fa := t.fa, trace := t.trace }
    | .tryGetFrame => t = { s.setTask s.serving (t.task s.serving) with rx := t.rx, fa := t.fa, trace := t.trace }
    | .feEncode _ _ _ _ => t = { s with trace := t.trace }
    | .fePutFrame _ _ _ _ => t = { s.setTask s.serving (t.task s.serving) with trace := t.trace }
    | .tpInit => t = { s with armed := t.armed, trace := t.trace }
    | .tpFire => t = { s with tx := t.tx, armed := t.armed, outstanding := t.outstanding, trace := t.trace }
    | .tpArm => t = { s with armed := t.armed, outstanding := t.outstanding, trace := t.trace }
    | .reset => t = { s with
        rx := t.rx, tx := t.tx, fa := t.fa, armed := t.armed, freeCount := t.freeCount, trace := t.trace }) ∧
    (∀ x k, (∀ a, i = putOf a x → k ≠ (s.ring x).endp) →
      Memory.read (t.ring x).mem k = Memory.read (s.ring x).mem k) ∧
    (∀ x a k, i = putOf a x → (s.ring x).isFull s.params.capacity = true →
      Memory.read (t.ring x).mem k = Memory.read (s.ring x).mem k)

/-- 10 R34, R44: no step changes the configuration, and a step only appends to the output trace. Nor does it change what the outside does
later, the model's own field (log 20). -/
def Obligations.ConfigurationStaysTraceGrows : Prop :=
  ∀ s t : State, step s = .next t → t.params = s.params ∧ s.trace <+: t.trace ∧ t.later = s.later

/-! ### Service under the agents' discipline -/

/-- 44 R181, 20 R80, 60 R218, 70 R255 to R261: with disciplined inputs every step keeps the service: the outstanding events agree with
`tp.armed`, and the room reserved for a frame stays. -/
def Obligations.StepKeepsService : Prop :=
  ∀ s t : State, s.Service → step s = .next t → t.Service

/-- 43 R162, R163, 20 R80: in service the bytes sent, those waiting in `tx` and those of the frame being stored always make up whole
valid frames in order: no partial frame, no interleaving, whatever falls between the primitives of `FE_PUT_FRAME`. -/
def Obligations.WholeFramesOnTheWire : Prop :=
  ∀ s t : State, s.Service → s.WholeFrames → step s = .next t → t.WholeFrames

/-- 70 R258, 44 R178: in service an idle pacer stays idle until `POLL` itself arms it (`State.supply`: the inputs ahead, log 20). -/
def Obligations.PacerStaysIdleUntilArmed : Prop :=
  ∀ s t : State, s.Service → s.armed = false → step s = .next t → t.armed = true →
    s.pollTask = some .arm ∨
    (s.pollTask = none ∧ ∃ w rest, s.supply.inputs = .request .poll w :: rest ∧ decode w = .ok .tpArm)

/-! ### What cannot be observed -/

/-- 20 R61, 10 R24, R40, R41: two states with the same contents, automaton state and live window bytes, and otherwise the same, behave the
same under every step, whatever lies in stale cells and stale window registers and wherever the contents lie. -/
def Obligations.HiddenStateIsUnobservable : Prop :=
  ∀ s t s' : State, s.Inv → t.Inv → s.SameView t → step s = .next s' →
    ∃ t', step t = .next t' ∧ s'.SameView t'

/-! ### Encodings -/

/-- 30 R93, R101, R103: decoding the canonical word of any operation gives the operation back, at every operand. -/
def Obligations.DecodeInvertsEncode : Prop :=
  ∀ i : Instr, decode (encode i) = .ok i ∧ decodeTableWord 40 (encode i).toNat = some i

/-- 30 R105: operand bytes a form does not use are ignored, and the canonical encoding has them zero. -/
def Obligations.UnusedOperandBytesAreIgnored : Prop :=
  (∀ (v w : CommandWord) (i : Instr), decode v = .ok i → opField w = opField v →
    (i.form ≠ .formN → aField w = aField v) →
    (i.form = .formQ → bField w = bField v ∧ cField w = cField v ∧ dField w = dField v) →
    decode w = .ok i) ∧
  (∀ i : Instr, (i.form = .formN → aField (encode i) = 0) ∧
    (i.form ≠ .formQ → bField (encode i) = 0 ∧ cField (encode i) = 0 ∧ dField (encode i) = 0))

/-- 30 R104: the 241 reserved codes: rejected by the decoder, answered `ILLEGAL_OP` by the core with nothing else changed. -/
def Obligations.ReservedOpAnswersIllegal : Prop :=
  (∀ w : CommandWord, opField w ∈ opCodes ↔ ∃ i, decode w = .ok i) ∧
  ((List.range 256).filter fun n => !opCodes.contains (BitVec.ofNat 8 n)).length = 241 ∧
  ∀ (s : State) (a : Agent) (w : CommandWord) (rest : List Input),
    s.params.Legal → s.inputs = .request a w :: rest → s.task a = none → opField w ∉ opCodes →
    step s = .next { s with
      serving := a, inputs := rest
      trace := s.trace ++ [.response a { ok := false, cond := .illegalOp }] }

/-- 30 R107, 95 V25, V47: words written out from the spec decode to the operations they stand for. -/
def Obligations.SpecWordsDecode : Prop :=
  decode 0x0199000000#40 = .ok (.rxbPut 0x99) ∧ decode 0x1000000000#40 = .ok .txbInit ∧
  decode 0x2100000000#40 = .ok .faStep ∧ decode 0x3012345678#40 = .ok (.feEncode 0x12 0x34 0x56 0x78) ∧
  decode 0x3104000000#40 = .ok (.fePutFrame 0x04 0 0 0) ∧ decode 0x41FFFFFFFF#40 = .ok .tpFire ∧
  decode 0xFF00000000#40 = .ok .reset ∧ decode 0x2300000000#40 = .error (.reservedOp 0x23)

/-- 30 R95: every field of a response stands at its bits of the response word; 60 R200: the numbers of the conditions. -/
def Obligations.ResponseWordLayout : Prop :=
  (condCode .none = 0 ∧ condCode .bufferFull = 1 ∧ condCode .checksumMismatch = 2 ∧ condCode .bufferEmpty = 3 ∧
    condCode .illegalOp = 4 ∧ condCode .pacerBusy = 5) ∧
  ∀ r : Response,
    (responseWord r).getLsbD 47 = r.ok ∧ (responseWord r).getLsbD 46 = r.valid ∧
    (responseWord r).getLsbD 45 = r.consumed ∧ (responseWord r).getLsbD 44 = r.txb ∧
    (responseWord r).getLsbD 43 = r.sched ∧ (responseWord r).extractLsb' 40 3 = condCode r.cond ∧
    (responseWord r).extractLsb' 32 8 = r.d0 ∧ (responseWord r).extractLsb' 24 8 = r.d1 ∧
    (responseWord r).extractLsb' 16 8 = r.d2 ∧ (responseWord r).extractLsb' 8 8 = r.d3 ∧
    (responseWord r).extractLsb' 0 8 = r.d4

/-- 30 R107: the source line of any operation by any agent assembles to the request of its canonical word (`TMR: TP_FIRE`, the
delivery of a timer event, apart: log 15). -/
def Obligations.SourceLinesAssemble : Prop :=
  ∀ (a : Agent) (i : Instr),
    assemble (lineOf a i) =
      if a = .tmr ∧ i = .tpFire then some (.timerEvent 0) else some (.request a (encode i))

/-! ### Steps -/

/-- 20 R71, 30 R103: a step whose next input is a command word of an agent with nothing under way runs the operation it decodes to, the
input taken and the agent the one served; `withFetchWord` makes it the next input of `POLL`. The list of inputs and `withFetchWord` are
the model's (log 2, 14). -/
def Obligations.StepRunsDecodedOperation : Prop :=
  (∀ (s : State) (a : Agent) (w : CommandWord) (rest : List Input) (i : Instr),
    s.params.Legal → s.inputs = .request a w :: rest → s.task a = none → decode w = .ok i →
    step s = exec i { s with inputs := rest, serving := a }) ∧
  (∀ (s : State) (w : Nat) (i : Instr), s.params.Legal → w < 2 ^ 40 → decodeTableWord 40 w = some i →
    step (s.withFetchWord 40 w) = exec i { s with serving := .poll, pollTask := none })

/-- 60 R207, R208, 30 R108, 44 R181: a receive event with a byte is `RXB_PUT` by `RXI`, one without issues nothing; the delivery of an
outstanding timer event removes it and is one `TP_FIRE` by `TMR`; with none outstanding there is no delivery (log 13). -/
def Obligations.EventsIssueTheirOperation : Prop :=
  ∀ (s : State) (rest : List Input), s.params.Legal →
    (∀ b, s.inputs = .rxEvent (some b) :: rest → s.rxiTask = none →
      step s = exec (.rxbPut b) { s with inputs := rest, serving := .rxi }) ∧
    (s.inputs = .rxEvent none :: rest → s.rxiTask = none → step s = .next { s with inputs := rest }) ∧
    (∀ k, s.inputs = .timerEvent k :: rest → s.tmrTask = none → k < s.outstanding.length →
      step s = exec .tpFire { s with inputs := rest, serving := .tmr, outstanding := s.outstanding.eraseIdx k }) ∧
    (∀ k, s.inputs = .timerEvent k :: rest → s.tmrTask = none → s.outstanding.length ≤ k →
      step s = .next { s with inputs := rest })

/-- 20 R76: an agent in mid-operation goes on with it before anything else it is asked for; its own turn, another agent's turn.
That its next request, receive event, timer event, `SEND` or `DRAIN` waits is the model's choice (log 12). -/
def Obligations.BusyAgentGoesOnFirst : Prop :=
  ∀ (s : State) (a : Agent) (w : CommandWord) (rest : List Input) (u : Task), s.params.Legal → s.task a = some u →
    (s.inputs = .request a w :: rest → step s = taskTurn u { s with serving := a }) ∧
    (∀ b, a = .rxi → s.inputs = .rxEvent b :: rest → step s = taskTurn u { s with serving := a }) ∧
    (∀ k, a = .tmr → s.inputs = .timerEvent k :: rest → step s = taskTurn u { s with serving := a }) ∧
    (∀ c p1 p2 p3, s.inputs = .send a c p1 p2 p3 :: rest → step s = taskTurn u { s with serving := a }) ∧
    (a = .tmr → s.inputs = .drain :: rest → step s = taskTurn u { s with serving := a }) ∧
    (s.inputs = .resume a :: rest → step s = taskTurn u { s with serving := a, inputs := rest }) ∧
    (∀ b i, b ≠ a → s.task b = none → s.inputs = .request b w :: rest → decode w = .ok i →
      step s = exec i { s with serving := b, inputs := rest })

/-- 70 R243: with nothing asked for and nothing under way the core waits; at a step where the outside, going on later, asks for nothing
(log 20) only the inputs drawn are counted. -/
def Obligations.CoreWaitsForOperations : Prop :=
  ∀ s : State, s.params.Legal → s.pollTask = none → s.rxiTask = none → s.tmrTask = none →
    (s.inputs = [] → s.later = .silent → step s = .next s) ∧
    (s.supply.inputs = [] → step s = .next s.supply ∧ s.supply = { s with freeCount := s.supply.freeCount })

/-- 10 R44: when the listed inputs are used up the outside goes on as `later` says, which the core does not determine: silent, with the
same inputs again, or with free ones. The form is the model's choice (log 20). -/
def Obligations.OutsideGoesOnAfterTheList : Prop :=
  ∀ s : State, s.params.Legal → s.inputs = [] →
    (s.later = .silent → step s = attend s) ∧
    (∀ is, s.later = .again is → step s = attend { s with inputs := is }) ∧
    (s.later = .free →
      step s = attend { s with inputs := (Config.freeInput s.freeCount).toList, freeCount := s.freeCount + 1 })

/-- 00 R7, R8, U10, U18: an illegal configuration is refused, and only that is (log 7). -/
def Obligations.OnlyIllegalConfigurationIsRefused : Prop :=
  ∀ s : State, ((s.params.capacity = 0 ∨ s.params.baudRate = 0) ↔ step s = .refused .illegalConfiguration) ∧
    ∀ m, step s ≠ .refused (.notModelled m)

end
end

