-- ==== Sys2Proof/Laws/Decode.lean ====
section
/-! SUPPORT. Command words: each field of a packed word is the byte packed there. -/

namespace Sys2Proof

variable (op a b c d : Byte)

@[simp] theorem opField_packCommand : opField (packCommand op a b c d) = op := by
  apply BitVec.eq_of_getElem_eq
  intro i hi
  simp only [opField, packCommand, BitVec.getElem_extractLsb', BitVec.getLsbD_append]
  grind

@[simp] theorem aField_packCommand : aField (packCommand op a b c d) = a := by
  apply BitVec.eq_of_getElem_eq
  intro i hi
  simp only [aField, packCommand, BitVec.getElem_extractLsb', BitVec.getLsbD_append]
  grind

@[simp] theorem bField_packCommand : bField (packCommand op a b c d) = b := by
  apply BitVec.eq_of_getElem_eq
  intro i hi
  simp only [bField, packCommand, BitVec.getElem_extractLsb', BitVec.getLsbD_append]
  grind

@[simp] theorem cField_packCommand : cField (packCommand op a b c d) = c := by
  apply BitVec.eq_of_getElem_eq
  intro i hi
  simp only [cField, packCommand, BitVec.getElem_extractLsb', BitVec.getLsbD_append]
  grind

@[simp] theorem dField_packCommand : dField (packCommand op a b c d) = d := by
  apply BitVec.eq_of_getElem_eq
  intro i hi
  simp only [dField, packCommand, BitVec.getElem_extractLsb', BitVec.getLsbD_append]
  grind

end Sys2Proof
end

