-- ==== Sys2Proof/Laws/Memory.lean ====
section
/-! SUPPORT. Ring stores: read after write, and the canonical form kept. -/

namespace Sys2Proof.Machine

theorem Memory.read_write_same (m : Memory) (a : Nat) (v : Byte) : Memory.read (Memory.write m a v) a = some v := by
  induction m with
  | nil => simp [Memory.write, Memory.read]
  | cons c m ih =>
    obtain ⟨k, w⟩ := c
    simp only [Memory.write]
    split
    · simp [Memory.read]
    · split
      · simp [Memory.read]
      · have : k ≠ a := fun h => by simp_all
        simp [Memory.read, this, ih]

theorem Memory.read_write_other (m : Memory) (a b : Nat) (v : Byte) (h : b ≠ a) :
    Memory.read (Memory.write m a v) b = Memory.read m b := by
  induction m with
  | nil => simp [Memory.write, Memory.read, Ne.symm h]
  | cons c m ih =>
    obtain ⟨k, w⟩ := c
    simp only [Memory.write]
    split
    · simp [Memory.read, Ne.symm h]
    · split
      · subst_vars
        simp [Memory.read, Ne.symm h]
      · simp [Memory.read, ih]

/-- The cells of a store after a write: the cell written and those that were there. -/
theorem Memory.mem_write {m : Memory} {a : Nat} {v : Byte} {c : Host.Cell} (h : c ∈ Memory.write m a v) :
    c = (a, v) ∨ c ∈ m := by
  induction m with
  | nil => simpa [Memory.write] using h
  | cons d m ih =>
    obtain ⟨k, w⟩ := d
    simp only [Memory.write] at h
    split at h
    · simpa using h
    · split at h
      · simp only [List.mem_cons] at h ⊢
        rcases h with h | h
        · exact .inl h
        · exact .inr (.inr h)
      · simp only [List.mem_cons] at h ⊢
        rcases h with h | h
        · exact .inr (.inl h)
        · rcases ih h with h | h
          · exact .inl h
          · exact .inr (.inr h)

/-- Every memory operation keeps the canonical form (a read changes nothing). -/
theorem Memory.write_wf {m : Memory} (a : Nat) (v : Byte) (h : Memory.Wf m) : Memory.Wf (Memory.write m a v) := by
  induction m with
  | nil => simp [Memory.write, Memory.Wf]
  | cons c m ih =>
    obtain ⟨k, w⟩ := c
    have h1 : Memory.Wf m := (List.pairwise_cons.mp h).2
    have h2 : ∀ x ∈ m, k < x.1 := fun x hx => (List.pairwise_cons.mp h).1 x.1 (List.mem_map_of_mem hx)
    simp only [Memory.write]
    split
    · rename_i hlt
      refine List.pairwise_cons.mpr ⟨?_, h⟩
      intro y hy
      simp only [List.map_cons, List.mem_cons, List.mem_map] at hy
      rcases hy with rfl | ⟨x, hx, rfl⟩
      · exact hlt
      · exact Nat.lt_trans hlt (h2 x hx)
    · split
      · subst_vars
        exact List.pairwise_cons.mpr ⟨(List.pairwise_cons.mp h).1, h1⟩
      · rename_i h3 h4
        refine List.pairwise_cons.mpr ⟨?_, ih h1⟩
        intro y hy
        obtain ⟨x, hx, rfl⟩ := List.mem_map.mp hy
        rcases Memory.mem_write hx with rfl | hx
        · show k < a
          omega
        · exact h2 x hx

end Sys2Proof.Machine
end

