-- ==== Sys2Proof/Laws/Ring.lean ====
section
/-! SUPPORT. Ring buffers: what `init`, `put` and `get` can do to a buffer in order, once, and what they do to its contents. -/

namespace Sys2Proof.Machine

variable {C : Nat} {r : Ring}

/-- Two offsets below the capacity reach different cells. -/
theorem slot_ne {s i j C : Nat} (hij : i < j) (hj : j < C + i) : (s + i) % C ≠ (s + j) % C := by
  intro h
  have h1 : (s + j - (s + i)) % C = 0 := Nat.sub_mod_eq_zero_of_mod_eq h.symm
  have h2 : s + j - (s + i) = j - i := by omega
  rw [h2, Nat.mod_eq_of_lt (by omega)] at h1
  omega

/-- Advancing `start` by one shifts the offsets by one. -/
theorem slot_succ (s i C : Nat) : ((s + 1) % C + i) % C = (s + (i + 1)) % C := by
  rw [Nat.mod_add_mod]
  congr 1
  omega

theorem Ring.Wf.pos (h : r.Wf C) : 0 < C := Nat.lt_of_le_of_lt (Nat.zero_le _) h.start_lt

theorem Ring.Wf.endp_lt (h : r.Wf C) : r.endp < C := by
  rw [h.endp_eq]
  exact Nat.mod_lt _ h.pos

/-- `contents` one byte further: the byte at the tail last. -/
theorem Ring.contents_snoc (mem : Memory) (s e n : Nat) :
    Ring.contents C { start := s, endp := e, count := n + 1, mem := mem } =
      Ring.contents C { start := s, endp := e, count := n, mem := mem } ++ (Memory.read mem ((s + n) % C)).toList := by
  simp only [Ring.contents, List.range_succ, List.filterMap_append, List.filterMap_cons, List.filterMap_nil]
  cases Memory.read mem ((s + n) % C) <;> rfl

/-- `contents` one byte further: the byte at the head first. -/
theorem Ring.contents_cons (mem : Memory) (s e n : Nat) :
    Ring.contents C { start := s, endp := e, count := n + 1, mem := mem } =
      (Memory.read mem (s % C)).toList ++
        Ring.contents C { start := (s + 1) % C, endp := e, count := n, mem := mem } := by
  simp only [Ring.contents, List.range_succ_eq_map, List.filterMap_cons, List.filterMap_map, Nat.add_zero]
  have h : ((fun i => Memory.read mem ((s + i) % C)) ∘ Nat.succ) =
      fun i => Memory.read mem (((s + 1) % C + i) % C) := by
    funext i
    exact congrArg _ (slot_succ s i C).symm
  rw [h]
  cases Memory.read mem (s % C) <;> rfl

@[simp] theorem Ring.contents_zero (mem : Memory) (s e : Nat) :
    Ring.contents C { start := s, endp := e, count := 0, mem := mem } = [] := rfl

@[simp] theorem Ring.contents_clear : r.clear.contents C = [] := rfl

@[simp] theorem Ring.contents_empty : Ring.empty.contents C = [] := rfl

/-- The number of bytes in the contents is `count` (10 R22, R24). -/
theorem Ring.Wf.length_contents (h : r.Wf C) : (r.contents C).length = r.count := by
  obtain ⟨s, e, n, mem⟩ := r
  have hw := h.written
  clear h
  simp only at hw ⊢
  induction n with
  | zero => rfl
  | succ n ih =>
    rw [Ring.contents_snoc, List.length_append, ih fun i hi => hw i (by omega)]
    obtain ⟨v, hv⟩ := Option.isSome_iff_exists.mp (hw n (by omega))
    simp [hv]

/-- What lies outside the cells of the contents does not show in them. -/
theorem Ring.contents_congr (m1 m2 : Memory) (s e1 e2 n : Nat)
    (h : ∀ i < n, Memory.read m1 ((s + i) % C) = Memory.read m2 ((s + i) % C)) :
    Ring.contents C { start := s, endp := e1, count := n, mem := m1 } =
      Ring.contents C { start := s, endp := e2, count := n, mem := m2 } := by
  simp only [Ring.contents]
  induction n with
  | zero => rfl
  | succ n ih =>
    simp only [List.range_succ, List.filterMap_append, List.filterMap_cons, List.filterMap_nil]
    rw [ih fun i hi => h i (by omega), h n (by omega)]

/-- An initialised buffer is in order whatever its store was, so long as that was canonical and inside the capacity. -/
theorem Ring.clear_wf (hC : 0 < C) (hm : Memory.Wf r.mem) (hl : ∀ c ∈ r.mem, c.1 < C) : r.clear.Wf C where
  start_lt := hC
  count_le := Nat.zero_le _
  endp_eq := by simp [Ring.clear]
  mem_wf := hm
  mem_lt := hl
  written := fun i hi => absurd hi (Nat.not_lt_zero i)

theorem Ring.Wf.clear (h : r.Wf C) : r.clear.Wf C := Ring.clear_wf h.pos h.mem_wf h.mem_lt

theorem Ring.empty_wf (hC : 0 < C) : Ring.empty.Wf C :=
  Ring.clear_wf (r := Ring.empty) hC List.Pairwise.nil (by simp [Ring.empty])

/-- Everything `put` can do to a buffer in order: refuse the byte when full, or append it. -/
theorem Ring.Wf.put (h : r.Wf C) (a : Byte) :
    (r.count = C ∧ r.put C a = .ok none) ∨
    (r.count < C ∧ ∃ r', r.put C a = .ok (some r') ∧ r'.Wf C ∧
      r' = { start := r.start, endp := (r.endp + 1) % C, count := r.count + 1, mem := Memory.write r.mem r.endp a } ∧
      r'.contents C = r.contents C ++ [a]) := by
  by_cases hf : r.count = C
  · exact .inl ⟨hf, by simp [Ring.put, Ring.isFull, hf]⟩
  · have hlt : r.count < C := Nat.lt_of_le_of_ne h.count_le hf
    refine .inr ⟨hlt, _, ?_, ?_, rfl, ?_⟩
    · simp [Ring.put, Ring.isFull, hf, memWrite, h.endp_lt]
    · have hne : ∀ i < r.count, (r.start + i) % C ≠ r.endp := fun i hi => by
        rw [h.endp_eq]
        exact slot_ne hi (by omega)
      constructor
      · exact h.start_lt
      · exact hlt
      · show (r.endp + 1) % C = (r.start + (r.count + 1)) % C
        rw [h.endp_eq, Nat.mod_add_mod]
        rfl
      · exact Memory.write_wf _ _ h.mem_wf
      · intro c hc
        rcases Memory.mem_write hc with rfl | hc
        · exact h.endp_lt
        · exact h.mem_lt c hc
      · intro i hi
        by_cases hi' : i < r.count
        · show (Memory.read (Memory.write r.mem r.endp a) ((r.start + i) % C)).isSome
          rw [Memory.read_write_other _ _ _ _ (hne i hi')]
          exact h.written i hi'
        · have : i = r.count := by
            have : i < r.count + 1 := hi
            omega
          subst this
          show (Memory.read (Memory.write r.mem r.endp a) ((r.start + r.count) % C)).isSome
          rw [← h.endp_eq, Memory.read_write_same]
          rfl
    · rw [Ring.contents_snoc, ← h.endp_eq, Memory.read_write_same]
      congr 1
      refine Ring.contents_congr _ _ _ _ _ _ fun i hi => ?_
      refine Memory.read_write_other _ _ _ _ ?_
      rw [h.endp_eq]
      exact slot_ne hi (by omega)

/-- Everything `get` can do to a buffer in order: nothing when empty, or hand out its oldest byte. -/
theorem Ring.Wf.get (h : r.Wf C) :
    (r.count = 0 ∧ r.get C = .ok none) ∨
    (0 < r.count ∧ ∃ v r', r.get C = .ok (some (v, r')) ∧ r'.Wf C ∧
      r' = { start := (r.start + 1) % C, endp := r.endp, count := r.count - 1, mem := r.mem } ∧
      Memory.read r.mem r.start = some v ∧ r.contents C = v :: r'.contents C) := by
  by_cases h0 : r.count = 0
  · exact .inl ⟨h0, by simp [Ring.get, Ring.isEmpty, h0]⟩
  · have hpos : 0 < r.count := Nat.pos_of_ne_zero h0
    obtain ⟨v, hv⟩ := Option.isSome_iff_exists.mp (h.written 0 hpos)
    rw [Nat.add_zero, Nat.mod_eq_of_lt h.start_lt] at hv
    refine .inr ⟨hpos, v, _, ?_, ?_, rfl, hv, ?_⟩
    · simp [Ring.get, Ring.isEmpty, h0, memRead, h.start_lt, hv]
    · constructor
      · exact Nat.mod_lt _ h.pos
      · have := h.count_le
        show r.count - 1 ≤ C
        omega
      · show r.endp = ((r.start + 1) % C + (r.count - 1)) % C
        rw [slot_succ, h.endp_eq, Nat.sub_add_cancel hpos]
      · exact h.mem_wf
      · exact h.mem_lt
      · intro i hi
        show (Memory.read r.mem (((r.start + 1) % C + i) % C)).isSome
        rw [slot_succ]
        refine h.written (i + 1) ?_
        have : i < r.count - 1 := hi
        omega
    · obtain ⟨s, e, n, mem⟩ := r
      simp only at hv h0 hpos ⊢
      obtain ⟨n, rfl⟩ : ∃ k, n = k + 1 := ⟨n - 1, by omega⟩
      rw [Ring.contents_cons, Nat.mod_eq_of_lt h.start_lt, hv]
      rfl

end Sys2Proof.Machine
end

