-- ==== Sys2Proof/Laws/State.lean ====
section
/-! SUPPORT. What each update of State changes and what it leaves: one lemma per field per update. -/

namespace Sys2Proof.Machine

section
variable (s : State) (x y : RingId) (r : Ring) (o : Output) (d : Nat) (q : Response) (a : Agent) (t : Option Task)

@[simp] theorem setRing_params : (s.setRing x r).params = s.params := by cases x <;> rfl

@[simp] theorem setRing_fa : (s.setRing x r).fa = s.fa := by cases x <;> rfl

@[simp] theorem setRing_armed : (s.setRing x r).armed = s.armed := by cases x <;> rfl

@[simp] theorem setRing_outstanding : (s.setRing x r).outstanding = s.outstanding := by cases x <;> rfl

@[simp] theorem setRing_pollTask : (s.setRing x r).pollTask = s.pollTask := by cases x <;> rfl

@[simp] theorem setRing_rxiTask : (s.setRing x r).rxiTask = s.rxiTask := by cases x <;> rfl

@[simp] theorem setRing_tmrTask : (s.setRing x r).tmrTask = s.tmrTask := by cases x <;> rfl

@[simp] theorem setRing_serving : (s.setRing x r).serving = s.serving := by cases x <;> rfl

@[simp] theorem setRing_inputs : (s.setRing x r).inputs = s.inputs := by cases x <;> rfl

@[simp] theorem setRing_later : (s.setRing x r).later = s.later := by cases x <;> rfl

@[simp] theorem setRing_trace : (s.setRing x r).trace = s.trace := by cases x <;> rfl

@[simp] theorem setRing_freeCount : (s.setRing x r).freeCount = s.freeCount := by cases x <;> rfl

@[simp] theorem setRing_rx_rx : (s.setRing .rx r).rx = r := rfl

@[simp] theorem setRing_rx_tx : (s.setRing .rx r).tx = s.tx := rfl

@[simp] theorem setRing_tx_tx : (s.setRing .tx r).tx = r := rfl

@[simp] theorem setRing_tx_rx : (s.setRing .tx r).rx = s.rx := rfl

@[simp] theorem ring_rx : s.ring .rx = s.rx := rfl

@[simp] theorem ring_tx : s.ring .tx = s.tx := rfl

@[simp] theorem ring_setRing_same : (s.setRing x r).ring x = r := by cases x <;> rfl

theorem ring_setRing_other (h : x ≠ y) : (s.setRing x r).ring y = s.ring y := by
  cases x <;> cases y <;> first | rfl | exact absurd rfl h

@[simp] theorem emit_params : (s.emit o).params = s.params := rfl

@[simp] theorem emit_rx : (s.emit o).rx = s.rx := rfl

@[simp] theorem emit_tx : (s.emit o).tx = s.tx := rfl

@[simp] theorem emit_fa : (s.emit o).fa = s.fa := rfl

@[simp] theorem emit_armed : (s.emit o).armed = s.armed := rfl

@[simp] theorem emit_outstanding : (s.emit o).outstanding = s.outstanding := rfl

@[simp] theorem emit_pollTask : (s.emit o).pollTask = s.pollTask := rfl

@[simp] theorem emit_rxiTask : (s.emit o).rxiTask = s.rxiTask := rfl

@[simp] theorem emit_tmrTask : (s.emit o).tmrTask = s.tmrTask := rfl

@[simp] theorem emit_serving : (s.emit o).serving = s.serving := rfl

@[simp] theorem emit_inputs : (s.emit o).inputs = s.inputs := rfl

@[simp] theorem emit_later : (s.emit o).later = s.later := rfl

@[simp] theorem emit_trace : (s.emit o).trace = s.trace ++ [o] := rfl

@[simp] theorem emit_freeCount : (s.emit o).freeCount = s.freeCount := rfl

@[simp] theorem schedule_params : (s.schedule d).params = s.params := rfl

@[simp] theorem schedule_rx : (s.schedule d).rx = s.rx := rfl

@[simp] theorem schedule_tx : (s.schedule d).tx = s.tx := rfl

@[simp] theorem schedule_fa : (s.schedule d).fa = s.fa := rfl

@[simp] theorem schedule_armed : (s.schedule d).armed = s.armed := rfl

@[simp] theorem schedule_outstanding : (s.schedule d).outstanding = s.outstanding ++ [d] := rfl

@[simp] theorem schedule_pollTask : (s.schedule d).pollTask = s.pollTask := rfl

@[simp] theorem schedule_rxiTask : (s.schedule d).rxiTask = s.rxiTask := rfl

@[simp] theorem schedule_tmrTask : (s.schedule d).tmrTask = s.tmrTask := rfl

@[simp] theorem schedule_serving : (s.schedule d).serving = s.serving := rfl

@[simp] theorem schedule_inputs : (s.schedule d).inputs = s.inputs := rfl

@[simp] theorem schedule_later : (s.schedule d).later = s.later := rfl

@[simp] theorem schedule_trace : (s.schedule d).trace = s.trace ++ [.sched d] := rfl

@[simp] theorem schedule_freeCount : (s.schedule d).freeCount = s.freeCount := rfl

@[simp] theorem respond_params : (s.respond q).params = s.params := rfl

@[simp] theorem respond_rx : (s.respond q).rx = s.rx := rfl

@[simp] theorem respond_tx : (s.respond q).tx = s.tx := rfl

@[simp] theorem respond_fa : (s.respond q).fa = s.fa := rfl

@[simp] theorem respond_armed : (s.respond q).armed = s.armed := rfl

@[simp] theorem respond_outstanding : (s.respond q).outstanding = s.outstanding := rfl

@[simp] theorem respond_pollTask : (s.respond q).pollTask = s.pollTask := rfl

@[simp] theorem respond_rxiTask : (s.respond q).rxiTask = s.rxiTask := rfl

@[simp] theorem respond_tmrTask : (s.respond q).tmrTask = s.tmrTask := rfl

@[simp] theorem respond_serving : (s.respond q).serving = s.serving := rfl

@[simp] theorem respond_inputs : (s.respond q).inputs = s.inputs := rfl

@[simp] theorem respond_later : (s.respond q).later = s.later := rfl

@[simp] theorem respond_trace : (s.respond q).trace = s.trace ++ [.response s.serving q] := rfl

@[simp] theorem respond_freeCount : (s.respond q).freeCount = s.freeCount := rfl

@[simp] theorem setTask_params : (s.setTask a t).params = s.params := by cases a <;> rfl

@[simp] theorem setTask_rx : (s.setTask a t).rx = s.rx := by cases a <;> rfl

@[simp] theorem setTask_tx : (s.setTask a t).tx = s.tx := by cases a <;> rfl

@[simp] theorem setTask_fa : (s.setTask a t).fa = s.fa := by cases a <;> rfl

@[simp] theorem setTask_armed : (s.setTask a t).armed = s.armed := by cases a <;> rfl

@[simp] theorem setTask_outstanding : (s.setTask a t).outstanding = s.outstanding := by cases a <;> rfl

@[simp] theorem setTask_serving : (s.setTask a t).serving = s.serving := by cases a <;> rfl

@[simp] theorem setTask_inputs : (s.setTask a t).inputs = s.inputs := by cases a <;> rfl

@[simp] theorem setTask_later : (s.setTask a t).later = s.later := by cases a <;> rfl

@[simp] theorem setTask_trace : (s.setTask a t).trace = s.trace := by cases a <;> rfl

@[simp] theorem setTask_freeCount : (s.setTask a t).freeCount = s.freeCount := by cases a <;> rfl

@[simp] theorem setTask_poll_pollTask : (s.setTask .poll t).pollTask = t := rfl

@[simp] theorem setTask_poll_rxiTask : (s.setTask .poll t).rxiTask = s.rxiTask := rfl

@[simp] theorem setTask_poll_tmrTask : (s.setTask .poll t).tmrTask = s.tmrTask := rfl

@[simp] theorem task_poll : s.task .poll = s.pollTask := rfl

@[simp] theorem setTask_rxi_pollTask : (s.setTask .rxi t).pollTask = s.pollTask := rfl

@[simp] theorem setTask_rxi_rxiTask : (s.setTask .rxi t).rxiTask = t := rfl

@[simp] theorem setTask_rxi_tmrTask : (s.setTask .rxi t).tmrTask = s.tmrTask := rfl

@[simp] theorem task_rxi : s.task .rxi = s.rxiTask := rfl

@[simp] theorem setTask_tmr_pollTask : (s.setTask .tmr t).pollTask = s.pollTask := rfl

@[simp] theorem setTask_tmr_rxiTask : (s.setTask .tmr t).rxiTask = s.rxiTask := rfl

@[simp] theorem setTask_tmr_tmrTask : (s.setTask .tmr t).tmrTask = t := rfl

@[simp] theorem task_tmr : s.task .tmr = s.tmrTask := rfl

@[simp] theorem task_setTask_same : (s.setTask a t).task a = t := by cases a <;> rfl

theorem task_setTask_other (b : Agent) (h : a ≠ b) : (s.setTask a t).task b = s.task b := by
  cases a <;> cases b <;> first | rfl | exact absurd rfl h

/-- What an agent has to do and what a buffer holds are written independently. -/
theorem setTask_setRing : (s.setRing x r).setTask a t = (s.setTask a t).setRing x r := by
  cases a <;> cases x <;> rfl

/-- The setters as record updates, for comparing states field by field. -/
theorem setRing_rx_eq : s.setRing .rx r = { s with rx := r } := rfl

theorem setRing_tx_eq : s.setRing .tx r = { s with tx := r } := rfl

theorem setTask_eq : s.setTask a t =
    { s with
      pollTask := if a = .poll then t else s.pollTask
      rxiTask := if a = .rxi then t else s.rxiTask
      tmrTask := if a = .tmr then t else s.tmrTask } := by
  cases a <;> rfl

end

end Sys2Proof.Machine
end

