-- ==== Sys2Proof/Laws/Ops.lean ====
section
/-! SUPPORT. The shared primitives on a state whose buffer is in order: everything each can do, said once. -/

namespace Sys2Proof.Machine

variable {s t : State} {q : Response}

@[simp] theorem complete_ok (s : State) (q : Response) : complete (.ok (s, q)) = .next (s.respond q) := rfl

@[simp] theorem complete_error (f : Fault) : complete (.error f) = .fault f := rfl

@[simp] theorem raise_eq (c : Cond) (s : State) : raise c s = .ok (s, { ok := false, cond := c }) := rfl

/-- A completed primitive answers a next state exactly when it answers a state and a response. -/
theorem complete_eq_next {p : Result} : complete p = .next t ↔ ∃ u q, p = .ok (u, q) ∧ t = u.respond q := by
  constructor
  · intro h
    match p with
    | .error f => simp at h
    | .ok (u, q) => exact ⟨u, q, rfl, by simpa using h.symm⟩
  · rintro ⟨u, q, rfl, rfl⟩
    rfl

/-- `PUT a` on `X` (41 R121). -/
theorem putByte_cases {x : RingId} (a : Byte) (h : (s.ring x).Wf s.params.capacity) :
    ((s.ring x).count = s.params.capacity ∧ putByte x a s = .ok (s, { ok := false, cond := .bufferFull })) ∨
    ((s.ring x).count < s.params.capacity ∧ ∃ r, putByte x a s = .ok (s.setRing x r, { ok := true }) ∧
      r.Wf s.params.capacity ∧
      r = { start := (s.ring x).start, endp := ((s.ring x).endp + 1) % s.params.capacity
            count := (s.ring x).count + 1, mem := Memory.write (s.ring x).mem (s.ring x).endp a } ∧
      r.contents s.params.capacity = (s.ring x).contents s.params.capacity ++ [a]) := by
  rcases h.put a with ⟨h0, hp⟩ | ⟨h0, r, hp, hr⟩
  · exact .inl ⟨h0, by simp [putByte, hp]⟩
  · exact .inr ⟨h0, r, by simp [putByte, hp], hr⟩

/-- `GET` on `X` (41 R122). -/
theorem getByte_cases {x : RingId} (h : (s.ring x).Wf s.params.capacity) :
    ((s.ring x).count = 0 ∧ getByte x s = .ok (s, { ok := false, cond := .bufferEmpty })) ∨
    (0 < (s.ring x).count ∧ ∃ v r, getByte x s = .ok (s.setRing x r, { ok := true, d0 := v }) ∧
      r.Wf s.params.capacity ∧
      r = { start := ((s.ring x).start + 1) % s.params.capacity, endp := (s.ring x).endp
            count := (s.ring x).count - 1, mem := (s.ring x).mem } ∧
      Memory.read (s.ring x).mem (s.ring x).start = some v ∧
      (s.ring x).contents s.params.capacity = v :: r.contents s.params.capacity) := by
  rcases h.get with ⟨h0, hp⟩ | ⟨h0, v, r, hp, hr⟩
  · exact .inl ⟨h0, by simp [getByte, hp]⟩
  · exact .inr ⟨h0, v, r, by simp [getByte, hp], hr⟩

/-- `FA_STEP` (42 R141): no byte and nothing changed, or the oldest byte of `rx` given to the automaton. -/
theorem faStep_cases (h : s.rx.Wf s.params.capacity) :
    (s.rx.count = 0 ∧ faStep s = .ok (s, { ok := false, cond := .bufferEmpty })) ∨
    (0 < s.rx.count ∧ ∃ b r,
      faStep s = .ok (emitVerdict (accept s.fa b).2 { s with rx := r, fa := (accept s.fa b).1 },
        stepResponse (accept s.fa b).2) ∧
      r.Wf s.params.capacity ∧
      r = { start := (s.rx.start + 1) % s.params.capacity, endp := s.rx.endp
            count := s.rx.count - 1, mem := s.rx.mem } ∧
      s.rx.contents s.params.capacity = b :: r.contents s.params.capacity) := by
  rcases h.get with ⟨h0, hp⟩ | ⟨h0, v, r, hp, hw, hr, -, hc⟩
  · exact .inl ⟨h0, by simp [faStep, hp]⟩
  · exact .inr ⟨h0, v, r, by simp [faStep, hp], hw, hr, hc⟩

/-- `TP_FIRE` (44 R176): the end of the chain, or the oldest byte of `tx` sent and the next event asked for. -/
theorem tpFire_cases (h : s.tx.Wf s.params.capacity) :
    (s.tx.count = 0 ∧ tpFire s = .ok ({ s with armed := false }, { ok := false, cond := .bufferEmpty })) ∨
    (0 < s.tx.count ∧ ∃ b r,
      tpFire s = .ok ({ s with
          tx := r
          armed := true
          outstanding := s.outstanding ++ [bytePeriod s.params]
          trace := s.trace ++ [.tx b] ++ [.sched (bytePeriod s.params)] },
        { ok := true, txb := true, sched := true, d0 := b }) ∧
      r.Wf s.params.capacity ∧
      r = { start := (s.tx.start + 1) % s.params.capacity, endp := s.tx.endp
            count := s.tx.count - 1, mem := s.tx.mem } ∧
      s.tx.contents s.params.capacity = b :: r.contents s.params.capacity) := by
  rcases h.get with ⟨h0, hp⟩ | ⟨h0, v, r, hp, hw, hr, -, hc⟩
  · exact .inl ⟨h0, by simp [tpFire, hp]⟩
  · exact .inr ⟨h0, v, r, by simp [tpFire, hp, State.emit, State.schedule], hw, hr, hc⟩

/-- `TP_ARM` (44 R178): busy and nothing changed, or armed with the first event asked for. -/
theorem tpArm_cases :
    (s.armed = true ∧ tpArm s = .ok (s, { ok := false, cond := .pacerBusy })) ∨
    (s.armed = false ∧ tpArm s = .ok ({ s.schedule s.params.armDelay with armed := true },
      { ok := true, sched := true })) := by
  cases h : s.armed <;> simp [tpArm, h]

/-! ### The automaton, row by row (42 R150) -/

theorem accept_awaitCommand (w : Frame5) (b : Byte) :
    accept { state := .awaitCommand, window := w } b =
      ({ state := .awaitParam1, window := { w with command := b } }, .stored) := rfl

theorem accept_awaitParam1 (w : Frame5) (b : Byte) :
    accept { state := .awaitParam1, window := w } b =
      ({ state := .awaitParam2, window := { w with param1 := b } }, .stored) := rfl

theorem accept_awaitParam2 (w : Frame5) (b : Byte) :
    accept { state := .awaitParam2, window := w } b =
      ({ state := .awaitParam3, window := { w with param2 := b } }, .stored) := rfl

theorem accept_awaitParam3 (w : Frame5) (b : Byte) :
    accept { state := .awaitParam3, window := w } b =
      ({ state := .awaitChecksum, window := { w with param3 := b } }, .stored) := rfl

theorem accept_match {w : Frame5} {b : Byte} (h : b = cks w.command w.param1 w.param2 w.param3) :
    accept { state := .awaitChecksum, window := w } b =
      ({ state := .awaitCommand, window := { w with checksum := b } }, .frame { w with checksum := b }) := if_pos h

theorem accept_mismatch {w : Frame5} {b : Byte} (h : b ≠ cks w.command w.param1 w.param2 w.param3) :
    accept { state := .awaitChecksum, window := w } b =
      ({ state := .awaitChecksum
         window := { command := w.param1, param1 := w.param2, param2 := w.param3, param3 := b, checksum := b } },
        .mismatch) := if_neg h

/-- What the automaton does with a byte (42 R150), by cases on whether it waits for the checksum. -/
theorem accept_cases (fa : Assembler) (b : Byte) :
    (fa.state ≠ .awaitChecksum ∧ (accept fa b).2 = .stored ∧
      (accept fa b).1.liveWindow = fa.liveWindow ++ [b]) ∨
    (fa.state = .awaitChecksum ∧ b = cks fa.window.command fa.window.param1 fa.window.param2 fa.window.param3 ∧
      (accept fa b).2 = .frame { fa.window with checksum := b } ∧ (accept fa b).1.state = .awaitCommand) ∨
    (fa.state = .awaitChecksum ∧ b ≠ cks fa.window.command fa.window.param1 fa.window.param2 fa.window.param3 ∧
      (accept fa b).2 = .mismatch ∧ (accept fa b).1.state = .awaitChecksum ∧
      (accept fa b).1.liveWindow = fa.liveWindow.tail ++ [b]) := by
  obtain ⟨st, w⟩ := fa
  cases st with
  | awaitChecksum =>
    by_cases hb : b = cks w.command w.param1 w.param2 w.param3
    · exact .inr (.inl ⟨rfl, hb, by rw [accept_match hb], by rw [accept_match hb]⟩)
    · exact .inr (.inr ⟨rfl, hb, by rw [accept_mismatch hb], by rw [accept_mismatch hb], by rw [accept_mismatch hb]; rfl⟩)
  | awaitCommand => exact .inl ⟨by simp, rfl, rfl⟩
  | awaitParam1 => exact .inl ⟨by simp, rfl, rfl⟩
  | awaitParam2 => exact .inl ⟨by simp, rfl, rfl⟩
  | awaitParam3 => exact .inl ⟨by simp, rfl, rfl⟩

end Sys2Proof.Machine
end

