-- ==== Sys2Proof/Laws/PerInstr.lean ====
section
/-! SUPPORT. Facts about every operation as syntax, one lemma per constructor.
CanonicalEncoding: the canonical word matches its row of the opcode table (30 R101, mask FF00000000) and has every operand
byte that its form does not use at zero (30 R105). -/

namespace Sys2Proof.Laws.CanonicalEncoding

/-- The row's operation code (30 R101). -/
def code : Instr → Byte
  | .rxbInit => 0x00
  | .rxbPut _ => 0x01
  | .rxbGet => 0x02
  | .txbInit => 0x10
  | .txbPut _ => 0x11
  | .txbGet => 0x12
  | .faInit => 0x20
  | .faStep => 0x21
  | .tryGetFrame => 0x22
  | .feEncode _ _ _ _ => 0x30
  | .fePutFrame _ _ _ _ => 0x31
  | .tpInit => 0x40
  | .tpFire => 0x41
  | .tpArm => 0x42
  | .reset => 0xFF

def Statement (i : Instr) : Prop :=
  opField (encode i) = code i ∧
  (i.form = .formN → aField (encode i) = 0) ∧
  (i.form ≠ .formQ → bField (encode i) = 0 ∧ cField (encode i) = 0 ∧ dField (encode i) = 0)

theorem rxbInit : Statement .rxbInit := by simp [Statement, encode, code, Instr.form]
theorem rxbPut (a : Byte) : Statement (.rxbPut a) := by simp [Statement, encode, code, Instr.form]
theorem rxbGet : Statement .rxbGet := by simp [Statement, encode, code, Instr.form]
theorem txbInit : Statement .txbInit := by simp [Statement, encode, code, Instr.form]
theorem txbPut (a : Byte) : Statement (.txbPut a) := by simp [Statement, encode, code, Instr.form]
theorem txbGet : Statement .txbGet := by simp [Statement, encode, code, Instr.form]
theorem faInit : Statement .faInit := by simp [Statement, encode, code, Instr.form]
theorem faStep : Statement .faStep := by simp [Statement, encode, code, Instr.form]
theorem tryGetFrame : Statement .tryGetFrame := by simp [Statement, encode, code, Instr.form]
theorem feEncode (a b c d : Byte) : Statement (.feEncode a b c d) := by simp [Statement, encode, code, Instr.form]
theorem fePutFrame (a b c d : Byte) : Statement (.fePutFrame a b c d) := by simp [Statement, encode, code, Instr.form]
theorem tpInit : Statement .tpInit := by simp [Statement, encode, code, Instr.form]
theorem tpFire : Statement .tpFire := by simp [Statement, encode, code, Instr.form]
theorem tpArm : Statement .tpArm := by simp [Statement, encode, code, Instr.form]
theorem reset : Statement .reset := by simp [Statement, encode, code, Instr.form]

end Sys2Proof.Laws.CanonicalEncoding
end

