-- ==== Sys2Proof/Laws/Response.lean ====
section
/-! SUPPORT. The response word (30 R95) split where its flags meet its data. -/

namespace Sys2Proof.Machine

theorem responseWord_flags (r : Response) (i : Nat) :
    (responseWord r).getLsbD (40 + i) = (responseFlags r).getLsbD i := by
  simp only [responseWord, BitVec.getLsbD_append]
  grind

theorem responseWord_data (r : Response) (i : Nat) (h : i < 40) :
    (responseWord r).getLsbD i = (r.d0 ++ r.d1 ++ r.d2 ++ r.d3 ++ r.d4).getLsbD i := by
  simp only [responseWord, BitVec.getLsbD_append]
  grind

end Sys2Proof.Machine
end

