-- ==== Sys2Proof/Laws/Step.lean ====
section
/-! SUPPORT. What a step can do, said once: it draws the inputs ahead, then waits, goes on with an operation
under way, or performs the next input. -/

namespace Sys2Proof.Machine

variable {s : State}

theorem step_legal (h : s.params.Legal) : step s = advance s := by simp [step, h]

theorem step_illegal (h : ¬ s.params.Legal) : step s = .refused .illegalConfiguration := by simp only [step, h, if_false]

/-- An agent found busy has a task. -/
theorem task_of_mem_busyAgents {a : Agent} (h : a ∈ busyAgents s) : ∃ u, s.task a = some u := by
  have := (List.mem_filter.mp h).2
  exact Option.isSome_iff_exists.mp this

/-- With nothing listed from outside: no agent is busy and the core waits, or a busy agent has its turn. -/
theorem proceed_cases :
    ((∀ a, s.task a = none) ∧ proceed s = .next s) ∨
    ∃ a u n, s.task a = some u ∧ proceed s = taskTurn u { s with serving := a, freeCount := n } := by
  unfold proceed
  split
  · rename_i h
    refine .inl ⟨fun a => ?_, rfl⟩
    have h2 : a ∉ busyAgents s := by simp [h]
    cases hu : s.task a with
    | none => rfl
    | some u => exact absurd (List.mem_filter.mpr ⟨by cases a <;> simp, by simp [hu]⟩) h2
  · rename_i a h
    obtain ⟨u, hu⟩ := task_of_mem_busyAgents (a := a) (s := s) (by simp [h])
    exact .inr ⟨a, u, s.freeCount, hu, by simp [resume, hu]⟩
  · rename_i a as _ h
    obtain ⟨b, hb⟩ : ∃ b, (a :: as).getD (Config.freeTurn s.freeCount % (as.length + 1)) a = b := ⟨_, rfl⟩
    have hm : b ∈ busyAgents s := by
      have hlt : Config.freeTurn s.freeCount % (as.length + 1) < (a :: as).length := Nat.mod_lt _ (Nat.succ_pos _)
      rw [h, ← hb, List.getD_eq_getElem _ _ hlt]
      exact List.getElem_mem hlt
    obtain ⟨u, hu⟩ := task_of_mem_busyAgents hm
    refine .inr ⟨b, u, s.freeCount + 1, hu, ?_⟩
    rw [hb]
    have : State.task { s with freeCount := s.freeCount + 1 } b = some u := by cases b <;> exact hu
    simp [resume, this]

/-! ### The inputs ahead -/

theorem supply_of_inputs {i : Input} {rest : List Input} (h : s.inputs = i :: rest) : s.supply = s := by
  simp [State.supply, h]

theorem supply_of_silent (h : s.later = .silent) : s.supply = s := by
  unfold State.supply
  split
  · rfl
  · simp [h]

theorem supply_of_again {is : List Input} (hi : s.inputs = []) (h : s.later = .again is) :
    s.supply = { s with inputs := is } := by
  simp [State.supply, hi, h]

theorem supply_of_free (hi : s.inputs = []) (h : s.later = .free) :
    s.supply = { s with inputs := (Config.freeInput s.freeCount).toList, freeCount := s.freeCount + 1 } := by
  simp [State.supply, hi, h]

/-- Drawing inputs changes the list and the counter of free values only. -/
theorem supply_eq (s : State) : s.supply = { s with inputs := s.supply.inputs, freeCount := s.supply.freeCount } := by
  unfold State.supply
  split
  · rfl
  · split <;> rfl

@[simp] theorem supply_params : s.supply.params = s.params := by rw [supply_eq]

@[simp] theorem supply_task (a : Agent) : s.supply.task a = s.task a := by rw [supply_eq]; cases a <;> rfl

/-- Every input ahead was listed, or is one of those the outside goes on with. -/
theorem mem_supply {i : Input} (h : i ∈ s.supply.inputs) :
    i ∈ s.inputs ∨ (∃ is, s.later = .again is ∧ i ∈ is) ∨ (s.later = .free ∧ ∃ n, Config.freeInput n = some i) := by
  unfold State.supply at h
  split at h
  · exact .inl h
  · split at h
    · exact .inl h
    · rename_i is hl
      exact .inr (.inl ⟨is, hl, h⟩)
    · rename_i hl
      exact .inr (.inr ⟨hl, s.freeCount, by simpa using h⟩)

/-- Everything a step can do in a legal configuration, from the state with the inputs ahead drawn. -/
theorem step_cases (h : s.params.Legal) :
    (s.supply.inputs = [] ∧ (∀ a, s.task a = none) ∧ step s = .next s.supply) ∨
    (∃ a u rest n, s.task a = some u ∧ rest <:+ s.supply.inputs ∧
      step s = taskTurn u { s with serving := a, inputs := rest, freeCount := n }) ∨
    (∃ i rest, s.supply.inputs = i :: rest ∧ waitsFor i s = none ∧ (∀ a, i = .resume a → s.task a = none) ∧
      step s = perform i { s with inputs := rest, freeCount := s.supply.freeCount }) := by
  have he := supply_eq s
  have hw (i : Input) : waitsFor i s.supply = waitsFor i s := by simp [waitsFor]
  rw [step_legal h, advance]
  generalize s.supply = t at *
  unfold attend
  split
  · rename_i hi
    rcases proceed_cases (s := t) with ⟨h1, h2⟩ | ⟨a, u, n, h1, h2⟩
    · exact .inl ⟨hi, fun a => by have := h1 a; rw [he] at this; cases a <;> exact this, h2⟩
    · refine .inr (.inl ⟨a, u, t.inputs, n, by rw [he] at h1; cases a <;> exact h1, List.suffix_refl _, ?_⟩)
      rw [h2, he]
  · rename_i i rest hi
    have ht (a : Agent) : t.task a = s.task a := by rw [he]; cases a <;> rfl
    split
    · rename_i a hwt
      obtain ⟨u, hu⟩ : ∃ u, t.task a = some u := by
        unfold waitsFor at hwt
        split at hwt
        · split at hwt
          · rename_i hs
            simp only [Option.some.injEq] at hwt
            subst hwt
            exact Option.isSome_iff_exists.mp hs
          · simp at hwt
        · simp at hwt
      refine .inr (.inl ⟨a, u, t.inputs, t.freeCount, by rw [← ht]; exact hu, List.suffix_refl _, ?_⟩)
      rw [resume, hu, he]
    · rename_i hwt
      by_cases hr : ∀ a, i = .resume a → s.task a = none
      · refine .inr (.inr ⟨i, rest, hi, by rw [← hw]; exact hwt, hr, ?_⟩)
        rw [he]
      · simp only [not_forall] at hr
        obtain ⟨a, rfl, hu⟩ := hr
        obtain ⟨u, hu⟩ := Option.ne_none_iff_exists'.mp hu
        refine .inr (.inl ⟨a, u, rest, t.freeCount, hu, by simp [hi], ?_⟩)
        have : State.task { t with inputs := rest } a = some u := by
          have := ht a
          rw [hu] at this
          cases a <;> exact this
        rw [perform, resume, this, he]

/-- Serving a word that decodes. -/
theorem serve_ok {a : Agent} {w : CommandWord} {i : Instr} (h : decode w = .ok i) :
    serve a w s = exec i { s with serving := a } := by simp [serve, h]

/-- Serving a word that does not (30 R104). -/
theorem serve_error {a : Agent} {w : CommandWord} {e : DecodeError} (h : decode w = .error e) :
    serve a w s = .next { s with
      serving := a, trace := s.trace ++ [.response a { ok := false, cond := .illegalOp }] } := by
  cases e
  simp [serve, h, raise, complete, State.respond]

end Sys2Proof.Machine
end

