-- ==== Sys2Proof/Laws/Run.lean ====
section
/-! SUPPORT. Runs of several steps, and the invariant under changes of the fields it does not read. -/

namespace Sys2Proof.Machine

variable {s t : State} {k m : Nat}

/-- The invariant reads the configuration and the two buffers only. -/
theorem State.Inv.of_eq (h : s.Inv) (hp : t.params = s.params) (hr : t.rx = s.rx) (ht : t.tx = s.tx) : t.Inv where
  legal := hp ▸ h.legal
  rx := by rw [hr, hp]; exact h.rx
  tx := by rw [ht, hp]; exact h.tx

theorem State.Inv.ring (h : s.Inv) (x : RingId) : (s.ring x).Wf s.params.capacity := by
  cases x
  · exact h.rx
  · exact h.tx

theorem State.Inv.setRing {r : Ring} (h : s.Inv) (x : RingId) (hr : r.Wf s.params.capacity) : (s.setRing x r).Inv := by
  cases x
  · exact ⟨h.legal, hr, h.tx⟩
  · exact ⟨h.legal, h.rx, hr⟩

theorem run_succ (h : step s = .next t) : Host.Core.run Sys2Proof.core (k + 1) s = Host.Core.run Sys2Proof.core k t := by
  have h' : Sys2Proof.core.step s = .next t := h
  simp only [Host.Core.run, h']

theorem run_add (h : Host.Core.run Sys2Proof.core k s = .next t) :
    Host.Core.run Sys2Proof.core (k + m) s = Host.Core.run Sys2Proof.core m t := by
  induction k generalizing s with
  | zero =>
    injection h with h
    subst h
    simp
  | succ k ih =>
    rw [Nat.succ_add]
    simp only [Host.Core.run] at h ⊢
    split at h
    · exact ih h
    · cases h
    · cases h

/-- With inputs listed, or the outside silent, a step takes what is listed. -/
theorem step_listed (hl : s.params.Legal) (h : s.inputs ≠ [] ∨ s.later = .silent) : step s = attend s := by
  rw [step_legal hl, advance]
  rcases h with h | h
  · obtain ⟨i, rest, hi⟩ := List.exists_cons_of_ne_nil h
    rw [supply_of_inputs hi]
  · rw [supply_of_silent h]

/-- With nothing asked from outside, `POLL` alone in mid-operation goes on. -/
theorem step_poll_alone {u : Task} (hl : s.params.Legal) (hq : s.later = .silent) (hi : s.inputs = [])
    (h1 : s.pollTask = some u) (h2 : s.rxiTask = none) (h3 : s.tmrTask = none) :
    step s = taskTurn u { s with serving := .poll } := by
  rw [step_listed hl (.inr hq), attend, hi]
  simp [proceed, busyAgents, State.task, h1, h2, h3, resume, ← hi]

end Sys2Proof.Machine
end

