-- ==== Sys2Proof/Tests/Slice0.lean ====
section
/-! SUPPORT. Tests from the spec's worked examples (95_test_vectors.md), and for every statement with hypotheses a state that meets them. -/

namespace Sys2Proof.Tests

open Sys2Proof.Machine

/-! ### Helpers -/

/-- A configuration of capacity `C` (`BYTE_PERIOD` is 20). -/
def cfg (C : Nat) : Params := { capacity := C, baudRate := 3, busClock := 6, armDelay := 7 }

/-- A buffer `(start, end, count)` with its store listed from cell 0. -/
def ringAt (start endp count : Nat) (cells : List Byte) : Ring :=
  { start := start, endp := endp, count := count, mem := (List.range cells.length).zip cells }

/-- A window. -/
def win (a b c d e : Byte) : Frame5 := { command := a, param1 := b, param2 := c, param3 := d, checksum := e }

/-- A state of capacity `C` with the given buffers, the assembler in `AwaitCommand` with a window of zeros. -/
def mk (C : Nat) (rx tx : Ring) : State :=
  { State.init (cfg C) with rx := rx, tx := tx, fa := { state := .awaitCommand, window := win 0 0 0 0 0 } }

/-- A condition on the next state of an outcome. -/
def nextIs (o : Host.Outcome State Fault Refusal) (p : State → Bool) : Bool :=
  match o with
  | .next t => p t
  | .fault _ => false
  | .refused _ => false

/-- The response words delivered, in order. -/
def words : List Output → List ResponseWord
  | [] => []
  | .response _ r :: os => responseWord r :: words os
  | .tx _ :: os => words os
  | .sched _ :: os => words os
  | .frame _ _ _ _ :: os => words os

theorem ring_wf {C : Nat} {r : Ring}
    (h : r.start < C ∧ r.count ≤ C ∧ r.endp = (r.start + r.count) % C ∧ Memory.Wf r.mem ∧ (∀ c ∈ r.mem, c.1 < C) ∧
      ∀ i < r.count, (Memory.read r.mem ((r.start + i) % C)).isSome) : r.Wf C :=
  ⟨h.1, h.2.1, h.2.2.1, h.2.2.2.1, h.2.2.2.2.1, h.2.2.2.2.2⟩

/-! ### Decoding: words written out bit by bit from 30 R93 and R101 -/

theorem test_decode_rxbInit : decode 0b0000000000000000000000000000000000000000#40 = .ok .rxbInit := by decide
theorem test_decode_rxbPut : decode 0b0000000110011001000000000000000000000000#40 = .ok (.rxbPut 0x99) := by decide
theorem test_decode_rxbGet : decode 0b0000001000000000000000000000000000000000#40 = .ok .rxbGet := by decide
theorem test_decode_txbInit : decode 0b0001000000000000000000000000000000000000#40 = .ok .txbInit := by decide
theorem test_decode_txbPut : decode 0b0001000111001100000000000000000000000000#40 = .ok (.txbPut 0xCC) := by decide
theorem test_decode_txbGet : decode 0b0001001000000000000000000000000000000000#40 = .ok .txbGet := by decide
theorem test_decode_faInit : decode 0b0010000000000000000000000000000000000000#40 = .ok .faInit := by decide
theorem test_decode_faStep : decode 0b0010000100000000000000000000000000000000#40 = .ok .faStep := by decide
theorem test_decode_tryGetFrame : decode 0b0010001000000000000000000000000000000000#40 = .ok .tryGetFrame := by decide
theorem test_decode_feEncode :
    decode 0b0011000000010010001101000101011001111000#40 = .ok (.feEncode 0x12 0x34 0x56 0x78) := by decide
theorem test_decode_fePutFrame :
    decode 0b0011000110110010000001000000010100000110#40 = .ok (.fePutFrame 0xB2 0x04 0x05 0x06) := by decide
theorem test_decode_tpInit : decode 0b0100000000000000000000000000000000000000#40 = .ok .tpInit := by decide
theorem test_decode_tpFire : decode 0b0100000100000000000000000000000000000000#40 = .ok .tpFire := by decide
theorem test_decode_tpArm : decode 0b0100001000000000000000000000000000000000#40 = .ok .tpArm := by decide
theorem test_decode_reset : decode 0b1111111100000000000000000000000000000000#40 = .ok .reset := by decide

/-- V46. -/
theorem test_decode_reserved :
    decode 0x0300000000#40 = .error (.reservedOp 0x03) ∧ decode 0x5000000000#40 = .error (.reservedOp 0x50) ∧
    decode 0xFE12345678#40 = .error (.reservedOp 0xFE) ∧ decodeTableWord 40 0x2300000000 = none := by decide

/-- V47. -/
theorem test_decode_unused_bytes : decode 0x02DEADBEEF#40 = .ok .rxbGet ∧ decode 0x0199AABBCC#40 = .ok (.rxbPut 0x99) := by
  decide

/-- 95 P4, V23 to V27: command words of the spec are what the encoder writes. -/
theorem test_encode_words :
    encode (.fePutFrame 0xA1 0x01 0x02 0x03) = 0x31A1010203#40 ∧ encode (.feEncode 0x80 0x40 0x20 0x10) = 0x3080402010#40 ∧
    encode (.txbPut 0xCC) = 0x11CC000000#40 ∧ encode .tpArm = 0x4200000000#40 := by decide

theorem test_table_word : decodeTableWord 40 0x4200000000 = some .tpArm ∧ decodeTableWord 40 0x0000000000 = some .rxbInit := by
  decide

/-! ### Well-formedness: what each check refuses -/

theorem test_illformed_capacity : ¬ (cfg 0).Legal := by decide
theorem test_illformed_baud : ¬ ({ cfg 4 with baudRate := 0 } : Params).Legal := by decide
theorem test_wellformed_config : (cfg 4).Legal ∧ Params.default.Legal := by decide
theorem test_illformed_operand_count :
    ¬ AsmLine.WellFormed { agent := none, mnemonic := .rxbPut, operands := [] } := by decide
theorem test_illformed_operand_range :
    ¬ AsmLine.WellFormed { agent := none, mnemonic := .rxbPut, operands := [256] } := by decide
theorem test_illformed_agent :
    ¬ AsmLine.WellFormed { agent := some .poll, mnemonic := .rxEvent, operands := [1] } := by decide
theorem test_wellformed_line :
    AsmLine.WellFormed { agent := some .rxi, mnemonic := .rxEvent, operands := [255] } := by decide

/-! ### Source text (30 R107 to R110) -/

theorem test_parse_line :
    parseLine "RXI: RXB_PUT 0x99 ; a byte".toList =
      some (some { agent := some .rxi, mnemonic := .rxbPut, operands := [0x99] }) := by decide
theorem test_parse_operands :
    parseLine "FE_PUT_FRAME 0x04, 0x00, 10,255".toList =
      some (some { agent := none, mnemonic := .fePutFrame, operands := [4, 0, 10, 255] }) := by decide
theorem test_parse_comment : parseLine "  ; only a comment".toList = some none := by decide
theorem test_parse_unknown : parseLine "RXB_PEEK".toList = none := by decide
/-- 30 R107: `FE_PUT_FRAME 0x04, 0x00, 0x00, 0x00` is `0x3104000000`, by `POLL`; R108: `RX_EVENT b`. -/
theorem test_assemble :
    assemble { agent := none, mnemonic := .fePutFrame, operands := [4, 0, 0, 0] } =
      some (.request .poll 0x3104000000#40) ∧
    assemble { agent := some .rxi, mnemonic := .rxEvent, operands := [0x99] } = some (.rxEvent (some 0x99)) ∧
    assemble { agent := none, mnemonic := .rxbPut, operands := [300] } = none := by decide

/-! ### Operations on the spec's vectors -/

/-- 41 R120, example. -/
theorem test_txbInit :
    nextIs (exec .txbInit (mk 4 Ring.empty (ringAt 3 1 2 [0x22, 0, 0, 0x11])))
      (fun t => t.tx = ringAt 0 0 0 [0x22, 0, 0, 0x11] && words t.trace == [0x800000000000#48]) = true := by decide

/-- 41 R121, example: the write wraps. -/
theorem test_rxbPut_wraps :
    nextIs (exec (.rxbPut 0x5A) (mk 4 (ringAt 1 3 2 [0, 1, 2, 3]) Ring.empty))
      (fun t => t.rx = ringAt 1 0 3 [0, 1, 2, 0x5A] && words t.trace == [0x800000000000#48]) = true := by decide

/-- 95 P3, step 5: a full buffer. -/
theorem test_rxbPut_full :
    nextIs (exec (.rxbPut 0x55) (mk 4 (ringAt 0 0 4 [0x11, 0x22, 0x33, 0x44]) Ring.empty))
      (fun t => t.rx = ringAt 0 0 4 [0x11, 0x22, 0x33, 0x44] && words t.trace == [0x010000000000#48]) = true := by decide

/-- 41 R122, example: the read wraps. -/
theorem test_txbGet_wraps :
    nextIs (exec .txbGet (mk 4 Ring.empty (ringAt 3 1 2 [0x22, 0, 0, 0x11])))
      (fun t => t.tx = ringAt 0 1 1 [0x22, 0, 0, 0x11] && words t.trace == [0x801100000000#48]) = true := by decide

/-- V10. -/
theorem test_rxbGet_empty :
    nextIs (exec .rxbGet (mk 4 Ring.empty Ring.empty))
      (fun t => t.rx = Ring.empty && words t.trace == [0x030000000000#48]) = true := by decide

/-- V9: `PUT AA` fills the buffer with equal pointers. -/
theorem test_txbPut_fills :
    nextIs (exec (.txbPut 0xAA) (mk 4 Ring.empty (ringAt 1 0 3 [0x66, 0x77, 0x88, 0x99])))
      (fun t => t.tx = ringAt 1 1 4 [0xAA, 0x77, 0x88, 0x99] && t.status.txFull) = true := by decide

/-- 42 R140. -/
theorem test_faInit :
    nextIs (exec .faInit { mk 4 Ring.empty Ring.empty with fa := { state := .awaitParam2, window := win 1 2 3 4 5 } })
      (fun t => t.fa.state = .awaitCommand && words t.trace == [0x800000000000#48]) = true := by decide

/-- V2, byte 5: a mismatch slides the window. -/
theorem test_faStep_slides :
    nextIs (exec .faStep { mk 4 (ringAt 0 2 2 [0, 4]) Ring.empty with
        fa := { state := .awaitChecksum, window := win 0x99 4 0 0 0 } })
      (fun t => t.fa = { state := .awaitChecksum, window := win 4 0 0 0 0 } && words t.trace == [0xA20000000000#48]) =
      true := by decide

/-- V2, byte 6: the match. -/
theorem test_faStep_match :
    nextIs (exec .faStep { mk 4 (ringAt 1 2 1 [0, 4]) Ring.empty with
        fa := { state := .awaitChecksum, window := win 4 0 0 0 0 } })
      (fun t => t.fa = { state := .awaitCommand, window := win 4 0 0 0 4 } && words t.trace == [0xE00400000004#48] &&
        t.trace.head? == some (.frame 4 0 0 0)) = true := by decide

/-- 95 P1, step 15. -/
theorem test_tryGetFrame_empty :
    nextIs (exec .tryGetFrame (mk 4 Ring.empty Ring.empty))
      (fun t => t.pollTask = none && words t.trace == [0x030000000000#48]) = true := by decide

/-- V2, byte 1, as the first turn of a `TRY_GET_FRAME`. -/
theorem test_tryGetFrame_goes_on :
    nextIs (exec .tryGetFrame (mk 4 (ringAt 0 1 1 [0x99]) Ring.empty))
      (fun t => t.pollTask = some .tryGetFrame && t.fa.window.command == 0x99 && t.trace == []) = true := by decide

/-- V25. -/
theorem test_feEncode :
    nextIs (exec (.feEncode 0x12 0x34 0x56 0x78) (mk 4 Ring.empty Ring.empty))
      (fun t => words t.trace == [0x801234567808#48]) = true := by decide

/-- V30: four cells free are too few; V31: `C = 5`, empty: accepted. -/
theorem test_fePutFrame_reserves :
    nextIs (exec (.fePutFrame 1 2 3 4) (mk 8 Ring.empty (ringAt 0 4 4 [1, 2, 3, 4])))
      (fun t => t.pollTask = none && t.tx.count == 4 && words t.trace == [0x010000000000#48]) = true ∧
    nextIs (exec (.fePutFrame 1 2 3 4) (mk 5 Ring.empty Ring.empty))
      (fun t => t.pollTask = some (.putFrame (win 1 2 3 4 4) 0 false) && t.trace == []) = true := by decide

/-- V33: the failing arm, two bytes stored. -/
theorem test_putFrame_fails :
    nextIs (step { mk 8 Ring.empty (ringAt 0 0 8 [1, 2, 3, 4, 5, 6, 7, 8]) with
        pollTask := some (.putFrame (win 1 2 3 4 4) 2 false) })
      (fun t => t.pollTask = none && words t.trace == [0x010200000000#48]) = true := by decide

/-- V39. -/
theorem test_tpInit :
    nextIs (exec .tpInit { mk 4 Ring.empty Ring.empty with armed := true })
      (fun t => t.armed == false && words t.trace == [0x800000000000#48]) = true := by decide

/-- V36: `TX`, then `SCHED(BYTE_PERIOD)`. -/
theorem test_tpFire_sends :
    nextIs (exec .tpFire { mk 4 Ring.empty (ringAt 0 2 2 [4, 0]) with armed := true })
      (fun t => t.trace.take 2 == [.tx 4, .sched 20] && words t.trace == [0x980400000000#48] && t.armed) = true := by decide

/-- V5. -/
theorem test_tpFire_empty :
    nextIs (exec .tpFire { mk 4 Ring.empty Ring.empty with armed := true })
      (fun t => t.armed == false && t.outstanding == [] && words t.trace == [0x030000000000#48]) = true := by decide

/-- V34. -/
theorem test_tpArm_idle :
    nextIs (exec .tpArm (mk 4 Ring.empty Ring.empty))
      (fun t => t.armed && t.outstanding == [7] && words t.trace == [0x880000000000#48]) = true := by decide

/-- V35. -/
theorem test_tpArm_busy :
    nextIs (exec .tpArm { mk 4 Ring.empty Ring.empty with armed := true })
      (fun t => t.armed && t.outstanding == [] && words t.trace == [0x050000000000#48]) = true := by decide

/-- V48. -/
theorem test_reset :
    nextIs (exec .reset { mk 4 (ringAt 2 1 3 [9, 8, 7, 6]) (ringAt 1 3 2 [5, 4, 3, 2]) with
        fa := { state := .awaitChecksum, window := win 0 1 0 4 4 }, armed := true })
      (fun t => t.rx = ringAt 0 0 0 [9, 8, 7, 6] && t.tx = ringAt 0 0 0 [5, 4, 3, 2] && t.fa.state = .awaitCommand &&
        t.armed == false && words t.trace == [0x800000000000#48]) = true := by decide

/-- V46 through a step: `ILLEGAL_OP`. -/
theorem test_step_reserved :
    nextIs (step (State.reset.withFetchWord 40 0x2300000000)) (fun t => words t.trace == [0x040000000000#48]) = true := by decide

/-- After reset the first step runs the word given. -/
theorem test_step_first_word :
    nextIs (step (State.reset.withFetchWord 40 0x0199000000))
      (fun t => t.rx == ringAt 0 1 1 [0x99] && words t.trace == [0x800000000000#48]) = true := by decide

/-- A receive event stores its byte for `RXI`; a timer event is delivered once. -/
theorem test_step_events :
    nextIs (step { mk 4 Ring.empty Ring.empty with inputs := [.rxEvent (some 0x42)] })
      (fun t => t.rx == ringAt 0 1 1 [0x42] && t.serving = .rxi) = true ∧
    nextIs (step { mk 4 Ring.empty (ringAt 0 1 1 [5]) with armed := true, outstanding := [7], inputs := [.timerEvent 0] })
      (fun t => t.outstanding == [20] && t.serving = .tmr && t.armed) = true := by decide

/-- V40, V41, V44, V45. -/
theorem test_bytePeriod :
    bytePeriod { cfg 4 with busClock := 8000000, baudRate := 9600 } = 8333 ∧
    bytePeriod { cfg 4 with busClock := 8000000, baudRate := 115200 } = 694 ∧
    bytePeriod { cfg 4 with busClock := 9600, baudRate := 96000 } = 1 ∧
    bytePeriod { cfg 4 with busClock := 1000000, baudRate := 3 } = 3333333 := by decide

/-- V14: a false lock. -/
theorem test_feed_false_lock :
    (feed { state := .awaitCommand, window := win 0 0 0 0 0 } [4, 4, 0, 0, 0, 4]).2 = [win 4 4 0 0 0] := by decide

/-- V17: a corrupted frame, then recovery on the good one. -/
theorem test_feed_recovers :
    (feed { state := .awaitCommand, window := win 0 0 0 0 0 } [4, 0, 1, 0, 4, 0x10, 0x20, 0x30, 0x40, 0x40]).2 =
      [win 0x10 0x20 0x30 0x40 0x40] := by decide

/-! ### Witnesses: for every statement with hypotheses, states and operands that meet them -/

/-- Full from cell 1. -/
def full : Ring := ringAt 1 1 4 [1, 2, 3, 4]

/-- Two bytes, wrapped round the end of the store: 4, then 1. -/
def wrapped : Ring := ringAt 3 1 2 [1, 2, 3, 4]

theorem full_wf : full.Wf 4 := ring_wf (by decide)
theorem wrapped_wf : wrapped.Wf 4 := ring_wf (by decide)
theorem empty_wf : Ring.empty.Wf 4 := ring_wf (by decide)

theorem inv_mk {C : Nat} {rx tx : Ring} (hC : 0 < C) (hr : rx.Wf C) (ht : tx.Wf C) : (mk C rx tx).Inv :=
  ⟨⟨hC, (by decide : 1 ≤ 3)⟩, hr, ht⟩

/-- A state in service: a full `rx`, two bytes in `tx`, the pacer armed, its event outstanding, one receive event ahead. -/
def serviceState : State :=
  { mk 4 full wrapped with armed := true, outstanding := [7], inputs := [.rxEvent (some 5)] }

theorem serviceState_inv : serviceState.Inv := ⟨by decide, full_wf, wrapped_wf⟩

theorem serviceState_service : serviceState.Service where
  inv := serviceState_inv
  inputs := by decide
  later := trivial
  rxiFree := rfl
  tmrFree := rfl
  noDrain := by decide
  timer := rfl
  room := by intro e i arm h; cases h

theorem witness_Legal : (cfg 1).Legal ∧ Params.default.Legal ∧ (cfg 4).Legal := by decide

/-- For `StepKeepsInvariant`, `StepNeverStops`, `RingCongruenceAfterEveryStep`, `StepIsOneQueueMove`, `ConfigurationStaysTraceGrows`. -/
theorem witness_StepKeepsInvariant : ∃ s t : State, s.Inv ∧ step s = .next t := ⟨serviceState, _, serviceState_inv, rfl⟩

/-- For `StepKeepsService`: an outside that goes on with disciplined inputs for ever. -/
theorem witness_Service_again :
    let s : State := { serviceState with later := .again [.rxEvent (some 5), .timerEvent 0, .request .poll 0x2200000000#40] }
    s.Service ∧ ∃ t, step s = .next t :=
  ⟨{ serviceState_service with
      inv := serviceState_inv.of_eq rfl rfl rfl
      later := (by decide : ∀ i ∈ [Input.rxEvent (some 5), .timerEvent 0, .request .poll 0x2200000000#40], i.disciplined = true) },
    _, rfl⟩

/-- For `PutStoresAtEnd`, `GetReturnsOldestByte`, `ContentsFollowQueueLaw`, `FlagsSayWhenPutAndGetFail`, `BothOrdersOfPutAndGet`:
a full, a wrapped and an empty buffer. -/
theorem witness_PutStoresAtEnd :
    (full.Wf 4 ∧ full.count = 4) ∧ (wrapped.Wf 4 ∧ wrapped.count ≠ 4 ∧ wrapped.count ≠ 0) ∧
    (Ring.empty.Wf 4 ∧ Ring.empty.count = 0) :=
  ⟨⟨full_wf, rfl⟩, ⟨wrapped_wf, by decide⟩, empty_wf, rfl⟩

/-- For the runs of `BothOrdersOfPutAndGet`: `RXI` puts and `POLL` gets, on a full `rx` and on an empty one. -/
theorem witness_BothOrdersOfPutAndGet :
    let ahead : List Input := [.request .rxi (encode (putOf 9 .rx)), .request .poll (encode (getOf .rx))]
    let s : State := { mk 4 full wrapped with inputs := ahead }
    let t : State := { mk 4 Ring.empty wrapped with inputs := ahead.reverse }
    (s.params.Legal ∧ (s.ring .rx).Wf s.params.capacity ∧ s.task .rxi = none ∧ s.task .poll = none ∧
      (s.ring .rx).count = s.params.capacity ∧
      s.inputs = .request .rxi (encode (putOf 9 .rx)) :: .request .poll (encode (getOf .rx)) :: []) ∧
    (t.params.Legal ∧ (t.ring .rx).Wf t.params.capacity ∧ t.task .rxi = none ∧ t.task .poll = none ∧
      (t.ring .rx).count = 0 ∧
      t.inputs = .request .poll (encode (getOf .rx)) :: .request .rxi (encode (putOf 9 .rx)) :: []) :=
  ⟨⟨by decide, full_wf, by decide⟩, ⟨by decide, empty_wf, by decide⟩⟩

theorem witness_InitEmptiesBuffer : serviceState.params.Legal := serviceState_inv.legal

theorem witness_PutsAndGetsAreFifo :
    full.Wf 4 ∧ (Ring.empty.Wf 4 ∧ Ring.empty.count = 0 ∧ Ring.empty.contents 4 = [] ∧ ([9, 8, 7, 6] : List Byte).length ≤ 4) :=
  ⟨full_wf, empty_wf, by decide⟩

theorem witness_RxAndTxPrimitivesCommute :
    serviceState.Inv ∧ rxPrimitive .faStep = true ∧ txPrimitive .tpFire = true := ⟨serviceState_inv, by decide⟩

/-- The five states of the automaton, a byte that matches and one that does not. -/
theorem witness_AssemblerTransitionTable :
    (Ring.empty.Wf 4 ∧ Ring.empty.count = 0) ∧ (full.Wf 4 ∧ full.contents 4 = 2 :: [3, 4, 1]) ∧
    (2 : Byte) = (win 1 2 1 0 0).command ^^^ (win 1 2 1 0 0).param1 ^^^ (win 1 2 1 0 0).param2 ^^^ (win 1 2 1 0 0).param3 ∧
    (2 : Byte) ≠ (win 1 2 1 1 0).command ^^^ (win 1 2 1 1 0).param1 ^^^ (win 1 2 1 1 0).param2 ^^^ (win 1 2 1 1 0).param3 :=
  ⟨⟨empty_wf, rfl⟩, ⟨full_wf, by decide⟩, by decide⟩

theorem witness_AlignedFramesAreRecognised :
    (mk 4 full wrapped).fa.state = .awaitCommand ∧ ∀ f ∈ [win 4 0 0 0 4, win 1 2 3 4 4], f.Valid := by decide

/-- Three bytes, four bytes, and five bytes that are no frame. -/
theorem witness_WindowHoldsTheLastBytes :
    (feed (mk 4 full wrapped).fa [1, 2, 3]).2 = [] ∧ (feed (mk 4 full wrapped).fa [1, 2, 3, 4]).2 = [] ∧
    (feed (mk 4 full wrapped).fa [1, 2, 3, 4, 5]).2 = [] := by decide

theorem witness_TryGetFrameTakesOneStep :
    (Ring.empty.Wf 4 ∧ Ring.empty.count = 0) ∧ (full.Wf 4 ∧ full.contents 4 = 2 :: [3, 4, 1]) ∧
    (accept { state := .awaitChecksum, window := win 1 2 1 0 0 } 2).2 = .frame (win 1 2 1 0 2) ∧
    ∀ f, (accept { state := .awaitCommand, window := win 1 2 1 0 0 } 2).2 ≠ .frame f :=
  ⟨⟨empty_wf, rfl⟩, ⟨full_wf, by decide⟩, by decide, by intro f h; cases h⟩

/-- One stray byte, a valid frame, one byte behind it; the write pointer has wrapped. -/
theorem witness_TryGetFrameResynchronises :
    let s : State := { mk 8 (ringAt 1 0 7 [0, 0x99, 4, 0, 0, 0, 4, 7]) Ring.empty with
      inputs := [.request .poll (encode .tryGetFrame)] }
    s.Inv ∧ s.inputs = [.request .poll (encode .tryGetFrame)] ∧ s.later = .silent ∧
      decode (encode .tryGetFrame) = .ok .tryGetFrame ∧ s.pollTask = none ∧ s.rxiTask = none ∧ s.tmrTask = none ∧
      s.fa.state = .awaitCommand ∧ (win 4 0 0 0 4).Valid ∧
      s.rx.contents s.params.capacity = [0x99] ++ wireBytes (win 4 0 0 0 4) ++ [7] ∧
      (feed s.fa ([0x99] ++ (wireBytes (win 4 0 0 0 4)).take 4)).2 = [] :=
  ⟨⟨by decide, ring_wf (by decide), ring_wf (by decide)⟩, by decide⟩

theorem witness_TryGetFrameParksWithoutFrame :
    let s : State := { mk 4 full wrapped with inputs := [.request .poll (encode .tryGetFrame)] }
    s.Inv ∧ s.inputs = [.request .poll (encode .tryGetFrame)] ∧ s.later = .silent ∧
      decode (encode .tryGetFrame) = .ok .tryGetFrame ∧ s.pollTask = none ∧ s.rxiTask = none ∧ s.tmrTask = none ∧
      (feed s.fa (s.rx.contents s.params.capacity)).2 = [] :=
  ⟨⟨by decide, full_wf, wrapped_wf⟩, by decide⟩

theorem witness_TryGetFrameReturnsOnFiniteInput :
    let s : State := { mk 4 full wrapped with
      inputs := [.request .poll (encode .tryGetFrame), .rxEvent (some 9), .rxEvent none] }
    s.Inv ∧ s.inputs = .request .poll (encode .tryGetFrame) :: [some 9, none].map .rxEvent ∧ s.later = .silent ∧
      decode (encode .tryGetFrame) = .ok .tryGetFrame ∧ s.pollTask = none ∧ s.rxiTask = none ∧ s.tmrTask = none :=
  ⟨⟨by decide, full_wf, wrapped_wf⟩, by decide⟩

/-- One byte `AA` in `rx`, in a buffer of one cell, and `AA` again and again. -/
def endless : State :=
  { mk 1 (ringAt 0 0 1 [0xAA]) Ring.empty with
    inputs := [.request .poll (encode .tryGetFrame)], later := .again [.rxEvent (some 0xAA), .resume .poll] }

theorem witness_TryGetFrameNeedNotReturn :
    endless.Inv ∧ endless.inputs = [.request .poll (encode .tryGetFrame)] ∧
      endless.later = .again [.rxEvent (some 0xAA), .resume .poll] ∧ decode (encode .tryGetFrame) = .ok .tryGetFrame ∧
      endless.pollTask = none ∧ endless.rxiTask = none ∧ endless.fa.state = .awaitCommand ∧
      endless.rx.contents endless.params.capacity = [0xAA] ∧ (0xAA : Byte) ≠ 0 :=
  ⟨⟨by decide, ring_wf (by decide), ring_wf (by decide)⟩, by decide⟩

theorem witness_FrameIdentities : (win 1 2 3 4 4).Valid ∧ (1 : Byte) ≠ 0 ∧ (0 : Fin 5) ≠ 4 := by decide

/-- Exactly five cells free, four, a capacity of four, a capacity of five with a byte in `tx`. -/
theorem witness_FePutFrameReservesFirst :
    (mk 7 Ring.empty wrapped).tx.count + 5 ≤ 7 ∧ 6 < (mk 6 Ring.empty wrapped).tx.count + 5 ∧
    (mk 4 Ring.empty wrapped).params.capacity < 5 ∧
    ((mk 5 Ring.empty wrapped).params.capacity = 5 ∧ (mk 5 Ring.empty wrapped).tx.count ≠ 0) := by decide

theorem witness_PutFrameTurnStoresOneByte :
    (full.Wf 4 ∧ full.count = 4) ∧ (wrapped.Wf 4 ∧ wrapped.count ≠ 4) ∧ (3 : Fin 5).val < 4 ∧ (4 : Fin 5).val = 4 :=
  ⟨⟨full_wf, rfl⟩, ⟨wrapped_wf, by decide⟩, by decide⟩

/-- For `FePutFrameIsAllOrNothing` and `SendStoresThenArms`: two bytes in `tx`, of capacity `C`, with one input ahead. -/
def sending (C : Nat) (i : Input) : State := { mk C Ring.empty (ringAt 3 5 2 [1, 2, 3, 4, 5]) with inputs := [i] }

/-- Exactly five cells free, and four. -/
theorem sending_inv (i : Input) :
    ((sending 7 i).Inv ∧ (sending 7 i).tx.count + 5 ≤ (sending 7 i).params.capacity) ∧
    ((sending 6 i).Inv ∧ (sending 6 i).params.capacity < (sending 6 i).tx.count + 5) :=
  ⟨⟨(inv_mk (by decide) (ring_wf (by decide)) (ring_wf (by decide)) : (mk 7 Ring.empty (ringAt 3 5 2 [1, 2, 3, 4, 5])).Inv).of_eq
      rfl rfl rfl, (by decide : 2 + 5 ≤ 7)⟩,
    (inv_mk (by decide) (ring_wf (by decide)) (ring_wf (by decide)) : (mk 6 Ring.empty (ringAt 3 5 2 [1, 2, 3, 4, 5])).Inv).of_eq
      rfl rfl rfl, (by decide : 6 < 2 + 5)⟩

theorem witness_FePutFrameIsAllOrNothing :
    let i : Input := .request .poll (encode (.fePutFrame 1 2 3 4))
    (sending 7 i).Inv ∧ (sending 6 i).Inv ∧ decode (encode (.fePutFrame 1 2 3 4)) = .ok (.fePutFrame 1 2 3 4) ∧
    ∀ C, (sending C i).inputs = [i] ∧ (sending C i).later = .silent ∧
      (sending C i).pollTask = none ∧ (sending C i).rxiTask = none ∧ (sending C i).tmrTask = none :=
  ⟨(sending_inv _).1.1, (sending_inv _).2.1, by decide, fun _ => ⟨rfl, rfl, rfl, rfl, rfl⟩⟩

theorem witness_SendStoresThenArms :
    let i : Input := .send .poll 1 2 3 4
    (sending 7 i).Inv ∧ (sending 6 i).Inv ∧
    ∀ C, (sending C i).inputs = [i] ∧ (sending C i).later = .silent ∧
      (sending C i).pollTask = none ∧ (sending C i).rxiTask = none ∧ (sending C i).tmrTask = none :=
  ⟨(sending_inv _).1.1, (sending_inv _).2.1, fun _ => ⟨rfl, rfl, rfl, rfl, rfl⟩⟩

/-- Bytes waiting, and none. -/
theorem witness_TpFireSendsOldestByte :
    (wrapped.Wf 4 ∧ wrapped.contents 4 = 4 :: [1]) ∧ (Ring.empty.Wf 4 ∧ Ring.empty.count = 0) :=
  ⟨⟨wrapped_wf, by decide⟩, empty_wf, rfl⟩

theorem witness_TpArmIsTestAndSet : serviceState.armed = true ∧ (mk 4 full wrapped).armed = false := by decide

theorem witness_PacerChainDrainsTx :
    let s : State := { serviceState with inputs := List.replicate 3 (.timerEvent 0) ++ [.rxEvent none] }
    s.Inv ∧ s.tmrTask = none ∧ s.tx.contents s.params.capacity = [4, 1] ∧ s.outstanding = [7] :=
  ⟨⟨by decide, full_wf, wrapped_wf⟩, by decide⟩

theorem witness_DrainRunsTheChain :
    let s : State := { serviceState with inputs := [.drain] }
    s.Inv ∧ s.inputs = [.drain] ∧ s.later = .silent ∧ s.pollTask = none ∧ s.rxiTask = none ∧ s.tmrTask = none ∧ s.tx.contents s.params.capacity = [4, 1] ∧
      s.outstanding = [7] :=
  ⟨⟨by decide, full_wf, wrapped_wf⟩, by decide⟩

theorem witness_ResetIsFourInits :
    let s : State := { serviceState with inputs := [.resetLine] }
    s.params.Legal ∧ s.inputs = .resetLine :: [] := by decide

/-- Every operation answers a next state; one `PUT` meets a full buffer and one does not. -/
theorem witness_OperationsChangeOnlyTheirUnit :
    ([.rxbInit, .rxbPut 1, .rxbGet, .txbInit, .txbPut 1, .txbGet, .faInit, .faStep, .tryGetFrame, .feEncode 1 2 3 4,
      .fePutFrame 1 2 3 4, .tpInit, .tpFire, .tpArm, .reset].all fun i => nextIs (exec i serviceState) fun _ => true) = true ∧
    (serviceState.ring .rx).isFull 4 = true ∧ (serviceState.ring .tx).isFull 4 = false := by decide

/-- For `StepKeepsService`; a step of a state in service. -/
theorem witness_StepKeepsService : ∃ s t : State, s.Service ∧ step s = .next t := ⟨serviceState, _, serviceState_service, rfl⟩

/-- A frame half sent: two bytes with the transport, one in `tx`, two still to store. -/
def halfSent : State :=
  { mk 8 Ring.empty (ringAt 2 3 1 [1, 2, 3]) with
    armed := true, outstanding := [20], trace := [.tx 1, .sched 20, .tx 2, .sched 20]
    pollTask := some (.putFrame (win 1 2 3 4 4) 3 false) }

theorem witness_WholeFramesOnTheWire :
    halfSent.Service ∧ halfSent.WholeFrames ∧ ∃ t, step halfSent = .next t :=
  ⟨{ inv := ⟨by decide, ring_wf (by decide), ring_wf (by decide)⟩, inputs := by decide, later := trivial, rxiFree := rfl, tmrFree := rfl,
     noDrain := by decide, timer := rfl,
     room := by
      intro e i arm h
      have : i = 3 := by
        injection h with h
        injection h with _ h _
        exact h.symm
      subst this
      decide },
   ⟨[win 1 2 3 4 4], by decide⟩, _, rfl⟩

/-- Both ways for `POLL` to arm an idle pacer: inside a `SEND`, and by `TP_ARM`. -/
theorem witness_PacerStaysIdleUntilArmed :
    (∃ s t : State, s.Service ∧ s.armed = false ∧ step s = .next t ∧ t.armed = true ∧ s.pollTask = some .arm) ∧
    ∃ s t : State, s.Service ∧ s.armed = false ∧ step s = .next t ∧ t.armed = true ∧ s.pollTask = none :=
  ⟨⟨{ mk 4 full wrapped with pollTask := some .arm }, _,
      { inv := ⟨by decide, full_wf, wrapped_wf⟩, inputs := by decide, later := trivial, rxiFree := rfl, tmrFree := rfl
        noDrain := by decide, timer := rfl, room := by intro e i arm h; cases h }, rfl, rfl, rfl, rfl⟩,
    { mk 4 full wrapped with inputs := [.request .poll 0x4200000000#40] }, _,
      { inv := ⟨by decide, full_wf, wrapped_wf⟩, inputs := by decide, later := trivial, rxiFree := rfl, tmrFree := rfl
        noDrain := by decide, timer := rfl, room := by intro e i arm h; cases h }, rfl, rfl, rfl, rfl⟩

/-- The same contents elsewhere in the store, other stale cells, another stale window. -/
theorem witness_HiddenStateIsUnobservable :
    let s : State := { serviceState with fa := { state := .awaitParam1, window := win 7 0 0 0 0 } }
    let t : State := { serviceState with
      tx := ringAt 0 2 2 [4, 1, 9, 9], fa := { state := .awaitParam1, window := win 7 1 2 3 4 } }
    s.Inv ∧ t.Inv ∧ s ≠ t ∧ s.SameView t ∧ ∃ s', step s = .next s' :=
  ⟨⟨by decide, full_wf, wrapped_wf⟩, ⟨by decide, full_wf, ring_wf (by decide)⟩, by decide,
    { params := rfl, rx := rfl, tx := by decide, faState := rfl, window := rfl, armed := rfl, outstanding := rfl
      pollTask := rfl, rxiTask := rfl, tmrTask := rfl, serving := rfl, inputs := rfl, later := rfl, trace := rfl, freeCount := rfl },
    _, rfl⟩

/-- One word of each form, with other bytes where the form reads none. -/
theorem witness_UnusedOperandBytesAreIgnored :
    (decode 0x0200000000#40 = .ok .rxbGet ∧ opField 0x02DEADBEEF#40 = opField 0x0200000000#40) ∧
    (decode 0x0199000000#40 = .ok (.rxbPut 0x99) ∧ opField 0x0199AABBCC#40 = opField 0x0199000000#40 ∧
      aField 0x0199AABBCC#40 = aField 0x0199000000#40) ∧
    decode 0x3001020304#40 = .ok (.feEncode 1 2 3 4) := by decide

theorem witness_ReservedOpAnswersIllegal :
    let s : State := { serviceState with inputs := [.request .tmr 0x2300000000#40] }
    s.params.Legal ∧ s.task .tmr = none ∧ opField 0x2300000000#40 ∉ opCodes := by decide

theorem witness_StepRunsDecodedOperation :
    let s : State := { serviceState with inputs := [.request .rxi 0x0199000000#40] }
    s.params.Legal ∧ s.task .rxi = none ∧ decode 0x0199000000#40 = .ok (.rxbPut 0x99) ∧
    0xFF00000000 < 2 ^ 40 ∧ decodeTableWord 40 0xFF00000000 = some .reset := by decide

theorem witness_EventsIssueTheirOperation :
    serviceState.params.Legal ∧ serviceState.inputs = .rxEvent (some 5) :: [] ∧ serviceState.rxiTask = none ∧
    serviceState.tmrTask = none ∧ 0 < serviceState.outstanding.length ∧ serviceState.outstanding.length ≤ 1 := by decide

theorem witness_BusyAgentGoesOnFirst :
    let s : State := { serviceState with pollTask := some .tryGetFrame, inputs := [.request .rxi 0x0199000000#40] }
    s.params.Legal ∧ s.task .poll = some .tryGetFrame ∧ Agent.rxi ≠ Agent.poll ∧ s.task .rxi = none ∧
    decode 0x0199000000#40 = .ok (.rxbPut 0x99) := by decide

/-- The forms that wait: every agent in mid-operation, and each input that would have one of them begin another. -/
theorem witness_BusyAgentGoesOnFirst_waits (i : Input) :
    let s : State := { serviceState with
      pollTask := some .tryGetFrame, rxiTask := some .tryGetFrame, tmrTask := some .drain, inputs := [i] }
    s.params.Legal ∧ s.inputs = i :: [] ∧ s.task .poll = some .tryGetFrame ∧ s.task .rxi = some .tryGetFrame ∧
    s.task .tmr = some .drain :=
  ⟨serviceState_inv.legal, rfl, rfl, rfl, rfl⟩

theorem test_busy_agent_waits :
    nextIs (step { serviceState with rxiTask := some .tryGetFrame })
      (fun t => t.inputs == [.rxEvent (some 5)] && t.rx.count == 3 && t.serving = .rxi) = true ∧
    nextIs (step { serviceState with tmrTask := some .drain, inputs := [.timerEvent 0] })
      (fun t => t.inputs == [.timerEvent 0] && t.tx.count == 1 && t.serving = .tmr) = true := by decide

/-- The outside silent, or going on with nothing at this step. -/
theorem witness_CoreWaitsForOperations :
    State.reset.params.Legal ∧ State.reset.inputs = [] ∧ State.reset.later = .silent ∧ State.reset.pollTask = none ∧
    State.reset.rxiTask = none ∧ State.reset.tmrTask = none ∧
    ({ State.reset with later := .again [] } : State).supply.inputs = [] := by decide

theorem witness_OutsideGoesOnAfterTheList :
    let s (l : Later) : State := { State.reset with later := l }
    ∀ l, (s l).params.Legal ∧ (s l).inputs = [] ∧ (s l).later = l := fun _ => ⟨witness_Legal.2.1, rfl, rfl⟩

/-- With the list used up a byte arrives again. -/
theorem test_step_again :
    nextIs (step { mk 4 Ring.empty Ring.empty with later := .again [.rxEvent (some 5)] })
      (fun t => t.rx == ringAt 0 1 1 [5] && t.inputs == []) = true := by decide

/-- Both ways a configuration is illegal, and a legal one. -/
theorem witness_OnlyIllegalConfigurationIsRefused :
    (cfg 0).capacity = 0 ∧ ({ cfg 4 with baudRate := 0 } : Params).baudRate = 0 ∧
    ¬((cfg 4).capacity = 0 ∨ (cfg 4).baudRate = 0) := by decide

end Sys2Proof.Tests
end

section
/-! PROOFS of 00_scope.md: the byte period, and which configurations the step refuses. -/

namespace Sys2Proof.Machine

/-! ### The byte period (00 R9) -/

theorem bytePeriod_mul_le (p : Params) : bytePeriod p * p.baudRate ≤ 10 * p.busClock :=
  Nat.div_mul_le_self _ _

theorem lt_bytePeriod_succ_mul {p : Params} (h : 1 ≤ p.baudRate) :
    10 * p.busClock < (bytePeriod p + 1) * p.baudRate :=
  (Nat.div_lt_iff_lt_mul h).mp (Nat.lt_succ_self _)

/-- Settles O36: the two bounds of a quotient rounded toward zero; the upper one needs `BAUD_RATE` above 0. -/
theorem bytePeriodIsRoundedQuotient : Obligations.BytePeriodIsRoundedQuotient := by
  rintro p ⟨-, hb⟩
  exact ⟨bytePeriod_mul_le p, lt_bytePeriod_succ_mul hb⟩

/-! ### Nothing below `step` refuses

An operation answers a next state or, from a state that breaks the invariant, a fault. So these lemmas ask nothing of the
state, and split on what the primitive answers where the laws of the primitives would need well-formed buffers. -/

section
variable {s : State} {q : Refusal}

theorem complete_ne_refused (p : Result) : complete p ≠ .refused q := by
  cases p with
  | error f => simp
  | ok v => simp [complete]

theorem goOn_ne_refused {u : Task} : goOn u s ≠ .refused q := by simp [goOn]

theorem finish_ne_refused {r : Response} : finish r s ≠ .refused q := by simp [finish]

theorem tryGetFrameTurn_ne_refused : tryGetFrameTurn s ≠ .refused q := by
  unfold tryGetFrameTurn
  split
  · simp
  · split
    · exact finish_ne_refused
    · split
      · exact goOn_ne_refused
      · exact finish_ne_refused

theorem reserveFrame_ne_refused {c p1 p2 p3 : Byte} {thenArm : Bool} :
    reserveFrame c p1 p2 p3 thenArm s ≠ .refused q := by
  unfold reserveFrame
  split
  · exact finish_ne_refused
  · exact goOn_ne_refused

theorem frameStored_ne_refused {thenArm : Bool} : frameStored thenArm s ≠ .refused q := by
  cases thenArm with
  | true => exact goOn_ne_refused
  | false => exact finish_ne_refused

theorem putFrameTurn_ne_refused {e : Frame5} {i : Fin 5} {thenArm : Bool} :
    putFrameTurn e i thenArm s ≠ .refused q := by
  unfold putFrameTurn
  split
  · simp
  · split
    · split
      · exact frameStored_ne_refused
      · exact goOn_ne_refused
    · exact finish_ne_refused

theorem armTurn_ne_refused : armTurn s ≠ .refused q := by
  unfold armTurn
  split
  · simp
  · exact finish_ne_refused

theorem drainTurn_ne_refused : drainTurn s ≠ .refused q := by
  unfold drainTurn
  split
  · simp
  · split
    · exact goOn_ne_refused
    · exact finish_ne_refused

theorem taskTurn_ne_refused {u : Task} : taskTurn u s ≠ .refused q := by
  cases u with
  | tryGetFrame => exact tryGetFrameTurn_ne_refused
  | putFrame e i thenArm => exact putFrameTurn_ne_refused
  | arm => exact armTurn_ne_refused
  | drain => exact drainTurn_ne_refused

/-- Every operation but the two of several primitives is one primitive, completed. -/
theorem exec_ne_refused {i : Instr} : exec i s ≠ .refused q := by
  cases i with
  | rxbInit => exact complete_ne_refused (initRing .rx s)
  | rxbPut a => exact complete_ne_refused (putByte .rx a s)
  | rxbGet => exact complete_ne_refused (getByte .rx s)
  | txbInit => exact complete_ne_refused (initRing .tx s)
  | txbPut a => exact complete_ne_refused (putByte .tx a s)
  | txbGet => exact complete_ne_refused (getByte .tx s)
  | faInit => exact complete_ne_refused (faInit s)
  | faStep => exact complete_ne_refused (faStep s)
  | tryGetFrame => exact tryGetFrameTurn_ne_refused
  | feEncode a b c d => simp [exec, execFeEncode]
  | fePutFrame a b c d => exact reserveFrame_ne_refused
  | tpInit => exact complete_ne_refused (tpInit s)
  | tpFire => exact complete_ne_refused (tpFire s)
  | tpArm => exact complete_ne_refused (tpArm s)
  | reset => exact complete_ne_refused (.ok (resetCore s, { ok := true }))

theorem serve_ne_refused {a : Agent} {w : CommandWord} : serve a w s ≠ .refused q := by
  cases h : decode w with
  | ok i => rw [serve_ok h]; exact exec_ne_refused
  | error e => simp [serve_error h]

theorem resume_ne_refused {a : Agent} : resume a s ≠ .refused q := by
  unfold resume
  split
  · exact taskTurn_ne_refused
  · simp

theorem perform_ne_refused {i : Input} : perform i s ≠ .refused q := by
  cases i with
  | request a w => exact serve_ne_refused
  | rxEvent b =>
    cases b with
    | none => simp [perform]
    | some b => exact serve_ne_refused
  | timerEvent k =>
    simp only [perform]
    split
    · exact serve_ne_refused
    · simp
  | resume a => exact resume_ne_refused
  | resetLine => simp [perform]
  | send a c p1 p2 p3 => exact reserveFrame_ne_refused
  | drain => exact drainTurn_ne_refused

end

/-! ### What `step` refuses -/

variable {s : State} {q : Refusal}

theorem step_ne_refused_of_legal (h : s.params.Legal) : step s ≠ .refused q := by
  rcases step_cases h with ⟨-, -, hs⟩ | ⟨a, u, rest, n, -, -, hs⟩ | ⟨i, rest, -, -, -, hs⟩ <;> rw [hs]
  · simp
  · exact taskTurn_ne_refused
  · exact perform_ne_refused

theorem step_eq_refused_iff : step s = .refused q ↔ ¬ s.params.Legal ∧ q = .illegalConfiguration := by
  by_cases h : s.params.Legal
  · simp [h, step_ne_refused_of_legal h]
  · simp [h, step_illegal h, eq_comm]

theorem not_legal_iff {p : Params} : ¬ p.Legal ↔ p.capacity = 0 ∨ p.baudRate = 0 := by
  unfold Params.Legal
  omega

/-- Settles O55: `step` refuses exactly the configurations that are not legal, and always for that reason. -/
theorem onlyIllegalConfigurationIsRefused : Obligations.OnlyIllegalConfigurationIsRefused := by
  refine fun s => ⟨?_, fun m => ?_⟩
  · rw [step_eq_refused_iff, not_legal_iff]
    simp
  · simp [step_eq_refused_iff]

end Sys2Proof.Machine
end

section
/-! PROOFS of 10_state.md: reset, the invariant, the flags, and what an operation and a step may change. -/

namespace Sys2Proof.Machine

/-! ### What a primitive answers, from any state

The laws of Laws/Ops.lean say which case holds where a buffer is in order. A frame has no such premise, so these lemmas start
from the answer. -/

section
variable {C : Nat} {r r' : Ring} {s u : State} {a b : Byte} {q : Response}

/-- A `PUT` that answers a buffer found room and wrote the cell at `end`. -/
theorem Ring.put_eq_some (h : r.put C a = .ok (some r')) :
    r.isFull C = false ∧ r'.mem = Memory.write r.mem r.endp a := by
  unfold Ring.put at h
  split at h
  · cases h
  · rename_i hf
    by_cases he : r.endp < C
    · simp only [memWrite, he, if_true, Except.ok.injEq, Option.some.injEq] at h
      exact ⟨by simpa using hf, by rw [← h]⟩
    · simp [memWrite, he] at h

/-- A `GET` clears no cell (10 R40). -/
theorem Ring.get_eq_some (h : r.get C = .ok (some (b, r'))) : r'.mem = r.mem := by
  unfold Ring.get at h
  split at h
  · cases h
  · split at h <;> cases h
    rfl

theorem putByte_eq_ok {x : RingId} (h : putByte x a s = .ok (u, q)) :
    u = s ∨ ∃ r, (s.ring x).put s.params.capacity a = .ok (some r) ∧ u = s.setRing x r := by
  unfold putByte at h
  split at h
  · cases h
  · cases h
    exact .inl rfl
  · rename_i r hr
    cases h
    exact .inr ⟨r, hr, rfl⟩

theorem getByte_eq_ok {x : RingId} (h : getByte x s = .ok (u, q)) :
    u = s ∨ ∃ b r, (s.ring x).get s.params.capacity = .ok (some (b, r)) ∧ u = s.setRing x r := by
  unfold getByte at h
  split at h
  · cases h
  · cases h
    exact .inl rfl
  · rename_i b r hr
    cases h
    exact .inr ⟨b, r, hr, rfl⟩

theorem emitVerdict_eq (v : Verdict) (s : State) : ∃ out, emitVerdict v s = { s with trace := s.trace ++ out } := by
  cases v with
  | stored => exact ⟨[], by simp [emitVerdict]⟩
  | frame f => exact ⟨_, rfl⟩
  | mismatch => exact ⟨[], by simp [emitVerdict]⟩

theorem faStep_eq_ok (h : faStep s = .ok (u, q)) :
    u = s ∨ ∃ b r out, s.rx.get s.params.capacity = .ok (some (b, r)) ∧
      u = { s with rx := r, fa := (accept s.fa b).1, trace := s.trace ++ out } := by
  unfold faStep at h
  split at h
  · cases h
  · cases h
    exact .inl rfl
  · rename_i b r hr
    cases h
    obtain ⟨out, ho⟩ := emitVerdict_eq (accept s.fa b).2 { s with rx := r, fa := (accept s.fa b).1 }
    exact .inr ⟨b, r, out, hr, ho⟩

theorem tpFire_eq_ok (h : tpFire s = .ok (u, q)) :
    u = { s with armed := false } ∨ ∃ b r, s.tx.get s.params.capacity = .ok (some (b, r)) ∧
      u = { s with
        tx := r
        armed := true
        outstanding := s.outstanding ++ [bytePeriod s.params]
        trace := s.trace ++ [.tx b] ++ [.sched (bytePeriod s.params)] } := by
  unfold tpFire at h
  split at h
  · cases h
  · cases h
    exact .inl rfl
  · rename_i b r hr
    cases h
    exact .inr ⟨b, r, hr, rfl⟩

theorem tpArm_eq_ok (h : tpArm s = .ok (u, q)) :
    u = s ∨ u = { s.schedule s.params.armDelay with armed := true } := by
  rcases tpArm_cases (s := s) with ⟨-, hp⟩ | ⟨-, hp⟩ <;> rw [hp] at h <;> cases h
  · exact .inl rfl
  · exact .inr rfl

end

/-! ### How a turn ends

A turn of an operation of several primitives is one primitive, after which only what its agent still has to do is set and
outputs are appended to the trace. -/

/-- The state `t` after the turn whose primitive left `u`. -/
def State.TurnEnds (u t : State) : Prop :=
  ∃ k out, t = { u.setTask u.serving k with trace := u.trace ++ out }

section
variable {s t u : State} {r : Response}

theorem State.TurnEnds.fa (h : u.TurnEnds t) : t.fa = u.fa := by
  obtain ⟨k, out, rfl⟩ := h
  exact setTask_fa ..

theorem State.TurnEnds.eq_setTask (h : u.TurnEnds t) : t = { u.setTask u.serving (t.task u.serving) with trace := t.trace } := by
  obtain ⟨k, out, rfl⟩ := h
  have hk : State.task { u.setTask u.serving k with trace := u.trace ++ out } u.serving = k := by
    cases u.serving <;> rfl
  rw [hk]

theorem goOn_turnEnds {k : Task} (h : goOn k u = .next t) : u.TurnEnds t := by
  cases h
  refine ⟨some k, [], ?_⟩
  rw [List.append_nil, ← setTask_trace u u.serving (some k)]

theorem goOn_respond_turnEnds {k : Task} (h : goOn k (u.respond r) = .next t) : u.TurnEnds t := by
  cases h
  exact ⟨some k, [.response u.serving r], by simp [State.respond, setTask_eq]⟩

theorem finish_turnEnds (h : finish r u = .next t) : u.TurnEnds t := by
  cases h
  refine ⟨none, [.response u.serving r], ?_⟩
  simp [State.respond]

theorem reserveFrame_turnEnds {c p1 p2 p3 : Byte} {thenArm : Bool} (h : reserveFrame c p1 p2 p3 thenArm s = .next t) :
    s.TurnEnds t := by
  unfold reserveFrame at h
  split at h
  · exact finish_turnEnds h
  · exact goOn_turnEnds h

theorem frameStored_turnEnds {thenArm : Bool} (h : frameStored thenArm u = .next t) : u.TurnEnds t := by
  cases thenArm with
  | true => exact goOn_respond_turnEnds h
  | false => exact finish_turnEnds h

theorem tryGetFrameTurn_eq_next (h : tryGetFrameTurn s = .next t) : ∃ u q, faStep s = .ok (u, q) ∧ u.TurnEnds t := by
  unfold tryGetFrameTurn at h
  split at h
  · cases h
  · rename_i u q hp
    refine ⟨u, q, hp, ?_⟩
    split at h
    · exact finish_turnEnds h
    · split at h
      · exact goOn_turnEnds h
      · exact finish_turnEnds h

theorem putFrameTurn_eq_next {e : Frame5} {i : Fin 5} {thenArm : Bool} (h : putFrameTurn e i thenArm s = .next t) :
    ∃ u q, putByte .tx (frameByte e i) s = .ok (u, q) ∧ u.TurnEnds t := by
  unfold putFrameTurn at h
  split at h
  · cases h
  · rename_i u q hp
    refine ⟨u, q, hp, ?_⟩
    split at h
    · split at h
      · exact frameStored_turnEnds h
      · exact goOn_turnEnds h
    · exact finish_turnEnds h

theorem armTurn_eq_next (h : armTurn s = .next t) : ∃ u q, tpArm s = .ok (u, q) ∧ u.TurnEnds t := by
  unfold armTurn at h
  split at h
  · cases h
  · rename_i u q hp
    exact ⟨u, q, hp, finish_turnEnds h⟩

theorem drainTurn_eq_next (h : drainTurn s = .next t) :
    ∃ u q, tpFire { s with outstanding := s.outstanding.tail } = .ok (u, q) ∧ u.TurnEnds t := by
  unfold drainTurn at h
  split at h
  · cases h
  · rename_i u q hp
    refine ⟨u, q, hp, ?_⟩
    split at h
    · exact goOn_respond_turnEnds h
    · exact finish_turnEnds h

end

/-! ### What a step does to the buffers, the configuration and the trace

One relation says it of a step from any state, and the invariant, the congruence of the pointers, the constancy of the
configuration and the growth of the trace are read off it. -/

/-- What one primitive does to a buffer: nothing, or one of the three operations of 41 R120 to R122. -/
inductive Ring.Move (C : Nat) (r : Ring) : Ring → Prop where
  | same : Ring.Move C r r
  | init : Ring.Move C r r.clear
  | put {a : Byte} {r' : Ring} (h : r.put C a = .ok (some r')) : Ring.Move C r r'
  | get {b : Byte} {r' : Ring} (h : r.get C = .ok (some (b, r'))) : Ring.Move C r r'

/-- Nothing but bookkeeping and outputs between two states: configuration, buffers and outside as they were. -/
structure State.Quiet (s t : State) : Prop where
  params : t.params = s.params
  rx : t.rx = s.rx
  tx : t.tx = s.tx
  later : t.later = s.later
  trace : s.trace <+: t.trace

/-- At most one move of each buffer between two states, beside bookkeeping and outputs. -/
structure State.Move (s t : State) : Prop where
  params : t.params = s.params
  rx : s.rx.Move s.params.capacity t.rx
  tx : s.tx.Move s.params.capacity t.tx
  later : t.later = s.later
  trace : s.trace <+: t.trace

section
variable {s t u : State} {r : Ring} {q : Response} {i : Instr}

theorem State.Quiet.move (h : s.Quiet t) : s.Move t where
  params := h.params
  rx := h.rx ▸ .same
  tx := h.tx ▸ .same
  later := h.later
  trace := h.trace

/-- Who is served, the events outstanding, the inputs ahead and the counter of free values are set before a primitive; no move
depends on them. -/
theorem State.Move.of_with {ds : List Nat} {a : Agent} {is : List Input} {n : Nat}
    (m : State.Move { s with outstanding := ds, serving := a, inputs := is, freeCount := n } t) : s.Move t :=
  ⟨m.params, m.rx, m.tx, m.later, m.trace⟩

theorem State.Move.trans_quiet (m : s.Move u) (h : u.Quiet t) : s.Move t where
  params := h.params.trans m.params
  rx := h.rx ▸ m.rx
  tx := h.tx ▸ m.tx
  later := h.later.trans m.later
  trace := m.trace.trans h.trace

theorem State.Move.refl (s : State) : s.Move s :=
  State.Quiet.move ⟨rfl, rfl, rfl, rfl, List.prefix_rfl⟩

theorem respond_quiet (s : State) (q : Response) : s.Quiet (s.respond q) :=
  ⟨rfl, rfl, rfl, rfl, List.prefix_append _ _⟩

theorem State.TurnEnds.quiet (h : u.TurnEnds t) : u.Quiet t := by
  obtain ⟨k, out, rfl⟩ := h
  exact ⟨setTask_params .., setTask_rx .., setTask_tx .., setTask_later .., List.prefix_append _ _⟩

theorem move_setRing {x : RingId} (h : (s.ring x).Move s.params.capacity r) : s.Move (s.setRing x r) := by
  cases x with
  | rx => exact ⟨rfl, h, .same, rfl, List.prefix_rfl⟩
  | tx => exact ⟨rfl, .same, h, rfl, List.prefix_rfl⟩

/-! The primitives -/

theorem putByte_move {x : RingId} {a : Byte} (h : putByte x a s = .ok (u, q)) : s.Move u := by
  rcases putByte_eq_ok h with rfl | ⟨r, hr, rfl⟩
  · exact .refl _
  · exact move_setRing (.put hr)

theorem getByte_move {x : RingId} (h : getByte x s = .ok (u, q)) : s.Move u := by
  rcases getByte_eq_ok h with rfl | ⟨b, r, hr, rfl⟩
  · exact .refl _
  · exact move_setRing (.get hr)

theorem faStep_move (h : faStep s = .ok (u, q)) : s.Move u := by
  rcases faStep_eq_ok h with rfl | ⟨b, r, out, hr, rfl⟩
  · exact .refl _
  · exact ⟨rfl, .get hr, .same, rfl, List.prefix_append _ _⟩

theorem tpFire_move (h : tpFire s = .ok (u, q)) : s.Move u := by
  rcases tpFire_eq_ok h with rfl | ⟨b, r, hr, rfl⟩
  · exact ⟨rfl, .same, .same, rfl, List.prefix_rfl⟩
  · exact ⟨rfl, .same, .get hr, rfl, (List.prefix_append _ _).trans (List.prefix_append _ _)⟩

theorem tpArm_move (h : tpArm s = .ok (u, q)) : s.Move u := by
  rcases tpArm_eq_ok h with rfl | rfl
  · exact .refl _
  · exact ⟨rfl, .same, .same, rfl, List.prefix_append _ _⟩

theorem resetCore_move (s : State) : s.Move (resetCore s) :=
  ⟨rfl, .init, .init, rfl, List.prefix_rfl⟩

/-! Operations, turns and steps -/

theorem complete_move {p : Result} (hp : ∀ {u q}, p = .ok (u, q) → s.Move u) (h : complete p = .next t) : s.Move t := by
  obtain ⟨u, q, hu, rfl⟩ := complete_eq_next.mp h
  exact (hp hu).trans_quiet (respond_quiet u q)

theorem tryGetFrameTurn_move (h : tryGetFrameTurn s = .next t) : s.Move t := by
  obtain ⟨u, q, hp, he⟩ := tryGetFrameTurn_eq_next h
  exact (faStep_move hp).trans_quiet he.quiet

theorem drainTurn_move (h : drainTurn s = .next t) : s.Move t := by
  obtain ⟨u, q, hp, he⟩ := drainTurn_eq_next h
  exact .of_with ((tpFire_move hp).trans_quiet he.quiet)

theorem taskTurn_move {k : Task} (h : taskTurn k s = .next t) : s.Move t := by
  cases k with
  | tryGetFrame => exact tryGetFrameTurn_move h
  | putFrame e i thenArm =>
    obtain ⟨u, q, hp, he⟩ := putFrameTurn_eq_next h
    exact (putByte_move hp).trans_quiet he.quiet
  | arm =>
    obtain ⟨u, q, hp, he⟩ := armTurn_eq_next h
    exact (tpArm_move hp).trans_quiet he.quiet
  | drain => exact drainTurn_move h

theorem exec_move (h : exec i s = .next t) : s.Move t := by
  cases i with
  | rxbInit => cases h; exact (move_setRing (x := .rx) .init).trans_quiet (respond_quiet _ _)
  | rxbPut a => exact complete_move putByte_move h
  | rxbGet => exact complete_move getByte_move h
  | txbInit => cases h; exact (move_setRing (x := .tx) .init).trans_quiet (respond_quiet _ _)
  | txbPut a => exact complete_move putByte_move h
  | txbGet => exact complete_move getByte_move h
  | faInit => cases h; exact ⟨rfl, .same, .same, rfl, List.prefix_append _ _⟩
  | faStep => exact complete_move faStep_move h
  | tryGetFrame => exact tryGetFrameTurn_move h
  | feEncode a b c d => cases h; exact (respond_quiet _ _).move
  | fePutFrame a b c d => exact (reserveFrame_turnEnds h).quiet.move
  | tpInit => cases h; exact ⟨rfl, .same, .same, rfl, List.prefix_append _ _⟩
  | tpFire => exact complete_move tpFire_move h
  | tpArm => exact complete_move tpArm_move h
  | reset => cases h; exact (resetCore_move s).trans_quiet (respond_quiet _ _)

theorem serve_move {a : Agent} {w : CommandWord} (h : serve a w s = .next t) : s.Move t := by
  cases hd : decode w with
  | ok i =>
    rw [serve_ok hd] at h
    exact .of_with (exec_move h)
  | error e =>
    rw [serve_error hd] at h
    cases h
    exact ⟨rfl, .same, .same, rfl, List.prefix_append _ _⟩

theorem resume_move {a : Agent} (h : resume a s = .next t) : s.Move t := by
  unfold resume at h
  split at h
  · exact .of_with (taskTurn_move h)
  · cases h
    exact .refl _

theorem perform_move {i : Input} (h : perform i s = .next t) : s.Move t := by
  cases i with
  | request a w => exact serve_move h
  | rxEvent b =>
    cases b with
    | none => cases h; exact .refl _
    | some b => exact serve_move h
  | timerEvent k =>
    simp only [perform] at h
    split at h
    · exact .of_with (serve_move h)
    · cases h
      exact .refl _
  | resume a => exact resume_move h
  | resetLine => cases h; exact resetCore_move s
  | send a c p1 p2 p3 =>
    exact .of_with (State.Quiet.move (reserveFrame_turnEnds h).quiet)
  | drain => exact .of_with (drainTurn_move h)

/-- Every step, from every state: at most one move of each buffer, the configuration and the outside kept, the trace extended. -/
theorem step_move (h : step s = .next t) : s.Move t := by
  by_cases hl : s.params.Legal
  · rcases step_cases hl with ⟨-, -, hs⟩ | ⟨a, k, rest, n, -, -, hs⟩ | ⟨i, rest, -, -, -, hs⟩ <;> rw [hs] at h
    · cases h
      rw [supply_eq]
      exact ⟨rfl, .same, .same, rfl, List.prefix_rfl⟩
    · exact .of_with (taskTurn_move h)
    · exact .of_with (perform_move h)
  · rw [step_illegal hl] at h
    cases h

/-- Settles O39: both halves are in what a step may do. -/
theorem configurationStaysTraceGrows : Obligations.ConfigurationStaysTraceGrows :=
  fun _ _ h => ⟨(step_move h).params, (step_move h).trace, (step_move h).later⟩

end

/-! ### The invariant (10 R23, R40) -/

section
variable {C : Nat} {r r' : Ring} {s t : State} {p : Params}

/-- Each of the three operations leaves a buffer in order. -/
theorem Ring.Wf.move (h : r.Wf C) (m : r.Move C r') : r'.Wf C := by
  cases m with
  | same => exact h
  | init => exact h.clear
  | @put a _ hp =>
    rcases h.put a with ⟨-, hn⟩ | ⟨-, r₁, h₁, hw, -⟩
    · rw [hn] at hp
      cases hp
    · rw [h₁] at hp
      cases hp
      exact hw
  | get hg =>
    rcases h.get with ⟨-, hn⟩ | ⟨-, v, r₁, h₁, hw, -⟩
    · rw [hn] at hg
      cases hg
    · rw [h₁] at hg
      cases hg
      exact hw

theorem State.Inv.move (h : s.Inv) (m : s.Move t) : t.Inv where
  legal := m.params ▸ h.legal
  rx := m.params ▸ h.rx.move m.rx
  tx := m.params ▸ h.tx.move m.tx

theorem step_inv (h : s.Inv) (hs : step s = .next t) : t.Inv := h.move (step_move hs)

/-- Settles O3: a step makes at most one move of each buffer, and each move keeps a buffer in order. -/
theorem stepKeepsInvariant : Obligations.StepKeepsInvariant := fun _ _ => step_inv

theorem init_inv (h : p.Legal) : (State.init p).Inv := ⟨h, Ring.empty_wf h.1, Ring.empty_wf h.1⟩

/-! ### The congruence of the pointers (10 R23) -/

theorem Ring.Wf.congruence (h : r.Wf C) : ((r.endp : Int) - r.start) % C = (r.count : Int) % C := by
  rw [h.endp_eq]
  push_cast
  rw [Int.emod_sub_emod, add_sub_cancel_left]

/-- Equal pointers leave the empty and the full buffer (10 R23). -/
theorem Ring.Wf.start_eq_endp_iff (h : r.Wf C) : r.start = r.endp ↔ r.count = 0 ∨ r.count = C := by
  have hs := h.start_lt
  have hc := h.count_le
  rw [h.endp_eq]
  by_cases hlt : r.start + r.count < C
  · rw [Nat.mod_eq_of_lt hlt]
    omega
  · have hwrap : (r.start + r.count) % C = r.start + r.count - C := by
      rw [Nat.mod_eq_sub_mod (by omega), Nat.mod_eq_of_lt (by omega)]
    rw [hwrap]
    omega

/-- Settles O6: the congruence form follows from the invariant, which reset establishes and every step keeps. -/
theorem ringCongruenceAfterEveryStep : Obligations.RingCongruenceAfterEveryStep := by
  refine ⟨fun p x hp => ?_, fun s t x hi hs => ?_⟩
  · have h := (init_inv hp).ring x
    exact ⟨h.congruence, h.count_le, h.start_lt, h.endp_lt⟩
  · have h := (step_inv hi hs).ring x
    exact ⟨h.congruence, h.count_le, h.start_lt, h.endp_lt, h.start_eq_endp_iff⟩

end

/-! ### The flags (10 R31, R37) -/

section
variable {C : Nat} {r : Ring} {s : State} {p : Params} (x : RingId)

@[simp] theorem Ring.isEmpty_iff : r.isEmpty = true ↔ r.count = 0 := by simp [Ring.isEmpty]

@[simp] theorem Ring.isFull_iff : r.isFull C = true ↔ r.count = C := by simp [Ring.isFull]

theorem idle_iff : s.idle = true ↔ s.armed = false := by simp [State.idle]

theorem not_empty_and_full (hC : 0 < C) : ¬(r.isEmpty = true ∧ r.isFull C = true) := by
  simp only [Ring.isEmpty_iff, Ring.isFull_iff]
  omega

@[simp] theorem init_ring : (State.init p).ring x = Ring.empty := by cases x <;> rfl

theorem Ring.isEmpty_empty : Ring.empty.isEmpty = true := rfl

theorem Ring.isFull_empty (hC : 0 < C) : Ring.empty.isFull C = false := by
  simp [Ring.isFull, Ring.empty]
  omega

theorem exec_initOf : exec (initOf x) s = complete (initRing x s) := by cases x <;> rfl

theorem exec_putOf (a : Byte) : exec (putOf a x) s = complete (putByte x a s) := by cases x <;> rfl

theorem exec_getOf : exec (getOf x) s = complete (getByte x s) := by cases x <;> rfl

/-- `PUT` completes, and its `ok` is 0 exactly on a full buffer (10 R31). -/
theorem exec_putOf_ok_iff (a : Byte) (h : (s.ring x).Wf s.params.capacity) :
    ∃ t q, exec (putOf a x) s = .next t ∧ t.trace = s.trace ++ [.response s.serving q] ∧
      (q.ok = false ↔ (s.ring x).isFull s.params.capacity = true) := by
  rw [exec_putOf, Ring.isFull_iff]
  rcases putByte_cases a h with ⟨hc, hp⟩ | ⟨hc, r, hp, -⟩ <;> rw [hp]
  · exact ⟨_, _, rfl, rfl, by simp [hc]⟩
  · exact ⟨_, { ok := true }, rfl, by simp, by simp [hc.ne]⟩

/-- `GET` completes, and its `ok` is 0 exactly on an empty buffer (10 R31). -/
theorem exec_getOf_ok_iff (h : (s.ring x).Wf s.params.capacity) :
    ∃ t q, exec (getOf x) s = .next t ∧ t.trace = s.trace ++ [.response s.serving q] ∧
      (q.ok = false ↔ (s.ring x).isEmpty = true) := by
  rw [exec_getOf, Ring.isEmpty_iff]
  rcases getByte_cases h with ⟨hc, hp⟩ | ⟨hc, v, r, hp, -⟩ <;> rw [hp]
  · exact ⟨_, _, rfl, rfl, by simp [hc]⟩
  · exact ⟨_, { ok := true, d0 := v }, rfl, by simp, by simp [hc.ne']⟩

end

/-- Settles O12: the flags compare `count` with 0 and with `C`, which is what `PUT` and `GET` test. -/
theorem flagsSayWhenPutAndGetFail : Obligations.FlagsSayWhenPutAndGetFail := by
  refine ⟨fun x a s h => ?_, fun p x hp => ?_, fun s => ?_⟩
  · exact ⟨Ring.isEmpty_iff, Ring.isFull_iff, not_empty_and_full h.pos, exec_putOf_ok_iff x a h, exec_getOf_ok_iff x h⟩
  · rw [init_ring]
    exact ⟨Ring.isEmpty_empty, Ring.isFull_empty hp.1⟩
  · exact ⟨rfl, rfl, Ring.isEmpty_iff, Ring.isFull_iff, Ring.isEmpty_iff, Ring.isFull_iff, idle_iff⟩

/-! ### The frame of every operation (10 R27, R30, R39; 20 R60, R70) -/

/-- No cell of a store changes but the one at `end` that a `PUT` with room stores to. -/
def CellsKept (i : Instr) (s t : State) : Prop :=
  (∀ x k, (∀ a, i = putOf a x → k ≠ (s.ring x).endp) →
    Memory.read (t.ring x).mem k = Memory.read (s.ring x).mem k) ∧
  (∀ x a k, i = putOf a x → (s.ring x).isFull s.params.capacity = true →
    Memory.read (t.ring x).mem k = Memory.read (s.ring x).mem k)

/-- Between `s` and `t` only buffer `x` and the trace differ. -/
def OnlyRing (x : RingId) (s t : State) : Prop :=
  ∃ r tr, t = { s.setRing x r with trace := tr }

section
variable {s t u : State} {i : Instr} {x : RingId} {a : Byte} {r : Ring} {q : Response}

theorem onlyRing_respond : OnlyRing x s (s.respond q) :=
  ⟨s.ring x, s.trace ++ [.response s.serving q], by cases x <;> rfl⟩

theorem onlyRing_setRing_respond : OnlyRing x s ((s.setRing x r).respond q) := ⟨r, _, rfl⟩

theorem cellsKept_of_mem_eq (h : ∀ x, (t.ring x).mem = (s.ring x).mem) : CellsKept i s t :=
  ⟨fun x k _ => by rw [h x], fun x a k _ _ => by rw [h x]⟩

/-- With both stores the very same, as after an operation that reaches neither buffer or only reads. -/
theorem cellsKept_of_rx_tx (hr : t.rx.mem = s.rx.mem) (ht : t.tx.mem = s.tx.mem) : CellsKept i s t :=
  cellsKept_of_mem_eq fun x => by cases x <;> assumption

@[simp] theorem ring_respond (y : RingId) : (s.respond q).ring y = s.ring y := by cases y <;> rfl

/-- A `PUT` names its buffer. -/
theorem ring_eq_of_putOf_eq {b : Byte} {y : RingId} (h : putOf a x = putOf b y) : x = y := by
  cases x <;> cases y <;> cases h <;> rfl

theorem ring_setRing_respond_mem (h : r.mem = (s.ring x).mem) (y : RingId) :
    (((s.setRing x r).respond q).ring y).mem = (s.ring y).mem := by
  rw [ring_respond]
  by_cases hy : x = y
  · subst hy
    rw [ring_setRing_same, h]
  · rw [ring_setRing_other _ _ _ _ hy]

theorem exec_initOf_frame (h : exec (initOf x) s = .next t) : OnlyRing x s t ∧ CellsKept (initOf x) s t := by
  rw [exec_initOf] at h
  cases h
  exact ⟨onlyRing_setRing_respond, cellsKept_of_mem_eq (ring_setRing_respond_mem rfl)⟩

theorem exec_getOf_frame (h : exec (getOf x) s = .next t) : OnlyRing x s t ∧ CellsKept (getOf x) s t := by
  rw [exec_getOf] at h
  obtain ⟨u, q, hu, rfl⟩ := complete_eq_next.mp h
  rcases getByte_eq_ok hu with rfl | ⟨b, r, hr, rfl⟩
  · exact ⟨onlyRing_respond, cellsKept_of_rx_tx rfl rfl⟩
  · exact ⟨onlyRing_setRing_respond, cellsKept_of_mem_eq (ring_setRing_respond_mem (Ring.get_eq_some hr))⟩

theorem exec_putOf_frame (h : exec (putOf a x) s = .next t) : OnlyRing x s t ∧ CellsKept (putOf a x) s t := by
  rw [exec_putOf] at h
  obtain ⟨u, q, hu, rfl⟩ := complete_eq_next.mp h
  rcases putByte_eq_ok hu with rfl | ⟨r, hr, rfl⟩
  · exact ⟨onlyRing_respond, cellsKept_of_rx_tx rfl rfl⟩
  · obtain ⟨hroom, hmem⟩ := Ring.put_eq_some hr
    refine ⟨onlyRing_setRing_respond, fun y k hk => ?_, fun y b k hi hfull => ?_⟩
    · by_cases hy : x = y
      · subst hy
        rw [ring_respond, ring_setRing_same, hmem, Memory.read_write_other _ _ _ _ (hk a rfl)]
      · rw [ring_respond, ring_setRing_other _ _ _ _ hy]
    · rw [ring_eq_of_putOf_eq hi, hfull] at hroom
      cases hroom

theorem faStep_frame (h : faStep s = .ok (u, q)) :
    ∃ r fa tr, u = { s with rx := r, fa := fa, trace := tr } ∧ r.mem = s.rx.mem := by
  rcases faStep_eq_ok h with rfl | ⟨b, r, out, hr, rfl⟩
  · exact ⟨_, _, _, rfl, rfl⟩
  · exact ⟨_, _, _, rfl, Ring.get_eq_some hr⟩

theorem tryGetFrameTurn_frame (h : tryGetFrameTurn s = .next t) :
    t = { s.setTask s.serving (t.task s.serving) with rx := t.rx, fa := t.fa, trace := t.trace } ∧
      t.rx.mem = s.rx.mem ∧ t.tx = s.tx := by
  obtain ⟨u, q, hp, he⟩ := tryGetFrameTurn_eq_next h
  obtain ⟨r, fa, tr, rfl, hm⟩ := faStep_frame hp
  have hrx : t.rx = r := he.quiet.rx
  have hfa : t.fa = fa := he.fa
  refine ⟨he.eq_setTask.trans ?_, hrx ▸ hm, he.quiet.tx⟩
  rw [hrx, hfa, setTask_eq, setTask_eq]

theorem reserveFrame_frame {c p1 p2 p3 : Byte} {thenArm : Bool} (h : reserveFrame c p1 p2 p3 thenArm s = .next t) :
    t = { s.setTask s.serving (t.task s.serving) with trace := t.trace } ∧ t.rx = s.rx ∧ t.tx = s.tx := by
  have he := reserveFrame_turnEnds h
  exact ⟨he.eq_setTask, he.quiet.rx, he.quiet.tx⟩

theorem tpFire_frame (h : tpFire s = .ok (u, q)) :
    ∃ r armed ds tr, u = { s with tx := r, armed := armed, outstanding := ds, trace := tr } ∧ r.mem = s.tx.mem := by
  rcases tpFire_eq_ok h with rfl | ⟨b, r, hr, rfl⟩
  · exact ⟨_, _, _, _, rfl, rfl⟩
  · exact ⟨_, _, _, _, rfl, Ring.get_eq_some hr⟩

theorem tpArm_frame (h : tpArm s = .ok (u, q)) :
    ∃ armed ds tr, u = { s with armed := armed, outstanding := ds, trace := tr } := by
  rcases tpArm_eq_ok h with rfl | rfl <;> exact ⟨_, _, _, rfl⟩

end

/-- Settles O38: buffer operations by the frame of their buffer, the others by the frame of their primitive, which at most reads. -/
theorem operationsChangeOnlyTheirUnit : Obligations.OperationsChangeOnlyTheirUnit := by
  intro i s t h
  cases i with
  | rxbInit =>
    obtain ⟨⟨r, tr, rfl⟩, hc⟩ := exec_initOf_frame (x := .rx) h
    exact ⟨rfl, hc⟩
  | rxbPut a =>
    obtain ⟨⟨r, tr, rfl⟩, hc⟩ := exec_putOf_frame (x := .rx) h
    exact ⟨rfl, hc⟩
  | rxbGet =>
    obtain ⟨⟨r, tr, rfl⟩, hc⟩ := exec_getOf_frame (x := .rx) h
    exact ⟨rfl, hc⟩
  | txbInit =>
    obtain ⟨⟨r, tr, rfl⟩, hc⟩ := exec_initOf_frame (x := .tx) h
    exact ⟨rfl, hc⟩
  | txbPut a =>
    obtain ⟨⟨r, tr, rfl⟩, hc⟩ := exec_putOf_frame (x := .tx) h
    exact ⟨rfl, hc⟩
  | txbGet =>
    obtain ⟨⟨r, tr, rfl⟩, hc⟩ := exec_getOf_frame (x := .tx) h
    exact ⟨rfl, hc⟩
  | faInit =>
    cases h
    exact ⟨rfl, cellsKept_of_rx_tx rfl rfl⟩
  | faStep =>
    obtain ⟨u, q, hu, rfl⟩ := complete_eq_next.mp h
    obtain ⟨r, fa, tr, rfl, hm⟩ := faStep_frame hu
    exact ⟨rfl, cellsKept_of_rx_tx hm rfl⟩
  | tryGetFrame =>
    obtain ⟨he, hr, ht⟩ := tryGetFrameTurn_frame h
    exact ⟨he, cellsKept_of_rx_tx hr (by rw [ht])⟩
  | feEncode a b c d =>
    cases h
    exact ⟨rfl, cellsKept_of_rx_tx rfl rfl⟩
  | fePutFrame a b c d =>
    obtain ⟨he, hr, ht⟩ := reserveFrame_frame h
    exact ⟨he, cellsKept_of_rx_tx (by rw [hr]) (by rw [ht])⟩
  | tpInit =>
    cases h
    exact ⟨rfl, cellsKept_of_rx_tx rfl rfl⟩
  | tpFire =>
    obtain ⟨u, q, hu, rfl⟩ := complete_eq_next.mp h
    obtain ⟨r, armed, ds, tr, rfl, hm⟩ := tpFire_frame hu
    exact ⟨rfl, cellsKept_of_rx_tx rfl hm⟩
  | tpArm =>
    obtain ⟨u, q, hu, rfl⟩ := complete_eq_next.mp h
    obtain ⟨armed, ds, tr, rfl⟩ := tpArm_frame hu
    exact ⟨rfl, cellsKept_of_rx_tx rfl rfl⟩
  | reset =>
    cases h
    exact ⟨rfl, cellsKept_of_rx_tx rfl rfl⟩

/-! ### Reset (10 R43) and the outside (10 R44) -/

theorem default_legal : Params.default.Legal := ⟨by decide, Nat.le_add_left 1 _⟩

theorem init_service {p : Params} (h : p.Legal) : (State.init p).Service where
  inv := init_inv h
  inputs := by simp [State.init]
  later := trivial
  rxiFree := rfl
  tmrFree := rfl
  noDrain := by simp [State.init]
  timer := rfl
  room := by simp [State.init]

theorem init_wholeFrames (p : Params) : (State.init p).WholeFrames := ⟨[], by simp, rfl⟩

/-- Settles O2: two empty buffers, nothing ahead, nothing sent. -/
theorem resetMeetsInvariants : Obligations.ResetMeetsInvariants :=
  ⟨init_inv default_legal, fun p h => ⟨init_inv h, init_service h, init_wholeFrames p⟩⟩

theorem init_status {p : Params} (h : p.Legal) :
    (State.init p).status =
      { rxCount := 0, txCount := 0, rxEmpty := true, rxFull := false, txEmpty := true, txFull := false, tpIdle := true } := by
  have hf := Ring.isFull_empty h.1
  simp only [State.status, State.init, hf]
  rfl

/-- Settles O1: the fields of `State.init`; only that a buffer is not full rests on the capacity. -/
theorem resetLeavesSpecifiedState : Obligations.ResetLeavesSpecifiedState := by
  refine ⟨fun p h => ⟨rfl, fun x => ?_, rfl, rfl, rfl, init_status h⟩, Params.default, default_legal, rfl, rfl⟩
  rw [init_ring]
  exact ⟨rfl, rfl, rfl, fun a => rfl⟩

/-- Settles O54: a step attends to the inputs drawn, and with none listed they are drawn as `later` says. -/
theorem outsideGoesOnAfterTheList : Obligations.OutsideGoesOnAfterTheList := by
  intro s hl hi
  rw [step_legal hl, advance]
  exact ⟨fun h => by rw [supply_of_silent h], fun is h => by rw [supply_of_again hi h], fun h => by rw [supply_of_free hi h]⟩

end Sys2Proof.Machine
end

section
/-! PROOFS of 20_memory.md: the contents of a buffer under a step, under a list of operations and under two agents at once; how a
request becomes an operation; the independence of the two buffers. -/

namespace Sys2Proof.Machine

/-! ### One queue move per step (20 R66) -/

section
variable {C : Nat} {r r' : Ring}

/-- A move of a buffer in order is a move of its contents. -/
theorem Ring.Move.queueMove (h : r.Wf C) (m : r.Move C r') : QueueMove (r.contents C) (r'.contents C) := by
  cases m with
  | same => exact .same _
  | init => exact .discard _
  | @put a _ hp =>
    rcases h.put a with ⟨-, hn⟩ | ⟨-, r₁, h₁, -, -, hc⟩
    · rw [hn] at hp
      cases hp
    · rw [h₁] at hp
      cases hp
      exact hc ▸ .append _ _
  | get hg =>
    rcases h.get with ⟨-, hn⟩ | ⟨-, v, r₁, h₁, -, -, -, hc⟩
    · rw [hn] at hg
      cases hg
    · rw [h₁] at hg
      cases hg
      exact hc ▸ .remove _ _

end

theorem State.Move.ring {s t : State} (m : s.Move t) (x : RingId) : (s.ring x).Move s.params.capacity (t.ring x) := by
  cases x with
  | rx => exact m.rx
  | tx => exact m.tx

/-- Settles O13: a step makes at most one move of each buffer. -/
theorem stepIsOneQueueMove : Obligations.StepIsOneQueueMove := by
  intro s t x h hs
  have m := step_move hs
  rw [m.params]
  exact (m.ring x).queueMove (h.ring x)

/-! ### Buffers under a list of operations (20 R73) -/

section
variable {C : Nat} {r r₁ r₂ : Ring} {b : Byte} {bs stored returned : List Byte} {ops : List RingOp}

theorem runRing_put_full (hp : r.put C b = .ok none) : runRing C r (.put b :: ops) = runRing C r ops := by
  simp [runRing, hp]

theorem runRing_put_room (hp : r.put C b = .ok (some r₁)) (h : runRing C r₁ ops = .ok (r₂, stored, returned)) :
    runRing C r (.put b :: ops) = .ok (r₂, b :: stored, returned) := by
  simp [runRing, hp, h]

theorem runRing_get_empty (hg : r.get C = .ok none) : runRing C r (.get :: ops) = runRing C r ops := by
  simp [runRing, hg]

theorem runRing_get_stored (hg : r.get C = .ok (some (b, r₁))) (h : runRing C r₁ ops = .ok (r₂, stored, returned)) :
    runRing C r (.get :: ops) = .ok (r₂, stored, b :: returned) := by
  simp [runRing, hg, h]

/-- The FIFO law: whatever was there and is stored comes out in that order, the rest of it staying behind. -/
theorem runRing_fifo (h : r.Wf C) (ops : List RingOp) :
    ∃ r' stored returned, runRing C r ops = .ok (r', stored, returned) ∧ r'.Wf C ∧
      r.contents C ++ stored = returned ++ r'.contents C := by
  induction ops generalizing r with
  | nil => exact ⟨r, [], [], rfl, h, by simp⟩
  | cons op ops ih =>
    cases op with
    | put b =>
      rcases h.put b with ⟨-, hp⟩ | ⟨-, r₁, hp, hw, -, hc⟩
      · rw [runRing_put_full hp]
        exact ih h
      · obtain ⟨r', stored, returned, hrun, hw', heq⟩ := ih hw
        exact ⟨r', _, _, runRing_put_room hp hrun, hw', by rw [← heq, hc, List.append_assoc]; rfl⟩
    | get =>
      rcases h.get with ⟨-, hg⟩ | ⟨-, v, r₁, hg, hw, -, -, hc⟩
      · rw [runRing_get_empty hg]
        exact ih h
      · obtain ⟨r', stored, returned, hrun, hw', heq⟩ := ih hw
        exact ⟨r', _, _, runRing_get_stored hg hrun, hw', by rw [hc, List.cons_append, heq, List.cons_append]⟩

/-- Puts for which there is room all succeed; what comes after them runs from the buffer they leave. -/
theorem runRing_puts (h : r.Wf C) (hroom : r.count + bs.length ≤ C) :
    ∃ r₁ : Ring, r₁.Wf C ∧ r₁.contents C = r.contents C ++ bs ∧
      ∀ {ops r₂ stored returned}, runRing C r₁ ops = .ok (r₂, stored, returned) →
        runRing C r (bs.map .put ++ ops) = .ok (r₂, bs ++ stored, returned) := by
  induction bs generalizing r with
  | nil => exact ⟨r, h, by simp, id⟩
  | cons b bs ih =>
    rw [List.length_cons] at hroom
    rcases h.put b with ⟨hfull, -⟩ | ⟨-, r', hp, hw, hr, hc⟩
    · omega
    · have hcount : r'.count = r.count + 1 := by rw [hr]
      obtain ⟨r₁, hw₁, hc₁, hrun⟩ := ih hw (by omega)
      exact ⟨r₁, hw₁, by rw [hc₁, hc, List.append_assoc]; rfl, fun h₂ => runRing_put_room hp (hrun h₂)⟩

/-- As many gets as there are bytes return the contents. -/
theorem runRing_gets (h : r.Wf C) :
    ∃ r', runRing C r (List.replicate (r.contents C).length .get) = .ok (r', [], r.contents C) := by
  generalize hbs : r.contents C = bs
  induction bs generalizing r with
  | nil => exact ⟨r, rfl⟩
  | cons b bs ih =>
    rcases h.get with ⟨h0, -⟩ | ⟨-, v, r₁, hg, hw, -, -, hc⟩
    · have hlen := h.length_contents
      rw [hbs, h0] at hlen
      cases hlen
    · rw [hbs] at hc
      cases hc
      obtain ⟨r', hrun⟩ := ih hw rfl
      exact ⟨r', runRing_get_stored hg hrun⟩

theorem Ring.Wf.contents_eq_nil (h : r.Wf C) (h0 : r.count = 0) : r.contents C = [] :=
  List.eq_nil_of_length_eq_zero (h.length_contents.trans h0)

end

/-- Settles O11: the FIFO law, and puts that fit followed by as many gets. -/
theorem putsAndGetsAreFifo : Obligations.PutsAndGetsAreFifo := by
  refine ⟨fun C r ops h => ?_, fun C r bs h h0 hlen => ?_⟩
  · obtain ⟨r', stored, returned, hrun, hw, heq⟩ := runRing_fifo h ops
    refine ⟨r', stored, returned, hrun, hw, heq, fun hnil => ⟨r'.contents C, ?_⟩⟩
    rw [← heq, hnil, List.nil_append]
  · obtain ⟨r₁, hw, hc, hrun⟩ := runRing_puts h (bs := bs) (by omega)
    rw [h.contents_eq_nil h0, List.nil_append] at hc
    obtain ⟨r₂, hgets⟩ := runRing_gets hw
    rw [hc] at hgets
    exact ⟨r₂, by simpa using hrun hgets⟩

/-! ### How a request becomes an operation (20 R71, R76) -/

theorem decode_encode (i : Instr) : decode (encode i) = .ok i := by
  cases i <;> simp [encode, decode]

section
variable {s : State} {a : Agent} {i : Input} {rest : List Input}

/-- The next input whose agent is free is performed. -/
theorem step_perform (hl : s.params.Legal) (hi : s.inputs = i :: rest) (hw : waitsFor i s = none) :
    step s = perform i { s with inputs := rest } := by
  rw [step_listed hl (.inl (by simp [hi])), attend, hi]
  simp only [hw]

/-- A command word of a free agent runs the operation it stands for. -/
theorem step_request {w : CommandWord} {j : Instr} (hl : s.params.Legal) (hi : s.inputs = .request a w :: rest)
    (ha : s.task a = none) (hd : decode w = .ok j) : step s = exec j { s with inputs := rest, serving := a } := by
  rw [step_perform hl hi (by simp [waitsFor, Input.starter, ha]), perform, serve_ok hd]

/-- An input that asks an agent in mid-operation to begin another waits while that agent has a turn. -/
theorem step_starter_busy {u : Task} (hl : s.params.Legal) (hi : s.inputs = i :: rest) (hs : i.starter = some a)
    (ha : s.task a = some u) : step s = taskTurn u { s with serving := a } := by
  have hw : waitsFor i s = some a := by simp [waitsFor, hs, ha]
  rw [step_listed hl (.inl (by simp [hi])), attend, hi]
  simp only [hw, resume, ha, hi]

/-- A resume gives an agent in mid-operation its turn. -/
theorem step_resume_busy {u : Task} (hl : s.params.Legal) (hi : s.inputs = .resume a :: rest) (ha : s.task a = some u) :
    step s = taskTurn u { s with serving := a, inputs := rest } := by
  have ht : State.task { s with inputs := rest } a = some u := by cases a <;> exact ha
  rw [step_perform hl hi rfl, perform, resume, ht]

end

/-- A table word is the command word of its low 40 bits. -/
theorem decode_of_decodeTableWord {w : Nat} {i : Instr} (h : decodeTableWord 40 w = some i) :
    decode (BitVec.ofNat 40 (w % 2 ^ 40)) = .ok i := by
  unfold decodeTableWord at h
  split at h
  · split at h
    · cases h
      assumption
    · cases h
  · cases h

/-- Settles O50: both forms put a command word of a free agent first. -/
theorem stepRunsDecodedOperation : Obligations.StepRunsDecodedOperation :=
  ⟨fun _ _ _ _ _ hl hi ha hd => step_request hl hi ha hd, fun s w _ hl _ hd =>
    step_request (s := s.withFetchWord 40 w) hl rfl rfl (decode_of_decodeTableWord hd)⟩

/-- Settles O52: all five inputs that begin an operation wait for their agent, and only for theirs. -/
theorem busyAgentGoesOnFirst : Obligations.BusyAgentGoesOnFirst := by
  intro s a w rest u hl ha
  refine ⟨fun hi => step_starter_busy hl hi rfl ha, ?_, ?_, fun _ _ _ _ hi => step_starter_busy hl hi rfl ha, ?_,
    fun hi => step_resume_busy hl hi ha, fun b i _ hb hi hd => step_request hl hi hb hd⟩
  · rintro b rfl hi
    exact step_starter_busy hl hi rfl ha
  · rintro k rfl hi
    exact step_starter_busy hl hi rfl ha
  · rintro rfl hi
    exact step_starter_busy hl hi rfl ha

/-! ### A `PUT` and a `GET` at the same step (20 R75) -/

/-- The state in which agent `a` is served, its request taken, with the inputs `is` still ahead. -/
def State.taking (s : State) (a : Agent) (is : List Input) : State := { s with inputs := is, serving := a }

section
variable {s : State} {x : RingId}

@[simp] theorem taking_params (a : Agent) (is : List Input) : (s.taking a is).params = s.params := rfl

@[simp] theorem taking_inputs (a : Agent) (is : List Input) : (s.taking a is).inputs = is := rfl

@[simp] theorem taking_serving (a : Agent) (is : List Input) : (s.taking a is).serving = a := rfl

@[simp] theorem taking_trace (a : Agent) (is : List Input) : (s.taking a is).trace = s.trace := rfl

@[simp] theorem task_taking (a b : Agent) (is : List Input) : (s.taking a is).task b = s.task b := rfl

@[simp] theorem task_setRing (r : Ring) (a : Agent) : (s.setRing x r).task a = s.task a := by cases x <;> cases a <;> rfl

@[simp] theorem task_respond (q : Response) (a : Agent) : (s.respond q).task a = s.task a := by cases a <;> rfl

@[simp] theorem ring_taking (a : Agent) (is : List Input) (y : RingId) : (s.taking a is).ring y = s.ring y := rfl

theorem exec_putOf_full (a : Byte) (hfull : (s.ring x).count = s.params.capacity) :
    exec (putOf a x) s = .next (s.respond { cond := .bufferFull }) := by
  simp [exec_putOf, putByte, Ring.put, Ring.isFull, hfull]

theorem exec_putOf_room (a : Byte) (h : (s.ring x).Wf s.params.capacity) (hroom : (s.ring x).count ≠ s.params.capacity) :
    ∃ r : Ring, exec (putOf a x) s = .next ((s.setRing x r).respond { ok := true }) ∧ r.Wf s.params.capacity ∧
      r.contents s.params.capacity = (s.ring x).contents s.params.capacity ++ [a] := by
  rcases putByte_cases a h with ⟨hc, -⟩ | ⟨-, r, hp, hw, -, hc⟩
  · exact absurd hc hroom
  · exact ⟨r, by rw [exec_putOf, hp, complete_ok], hw, hc⟩

theorem exec_getOf_empty (h0 : (s.ring x).count = 0) :
    exec (getOf x) s = .next (s.respond { cond := .bufferEmpty }) := by
  simp [exec_getOf, getByte, Ring.get, Ring.isEmpty, h0]

theorem exec_getOf_stored (h : (s.ring x).Wf s.params.capacity) (hpos : (s.ring x).count ≠ 0) :
    ∃ (v : Byte) (r : Ring), exec (getOf x) s = .next ((s.setRing x r).respond { ok := true, d0 := v }) ∧
      r.Wf s.params.capacity ∧ r.count = (s.ring x).count - 1 ∧
      (s.ring x).contents s.params.capacity = v :: r.contents s.params.capacity := by
  rcases getByte_cases h with ⟨hc, -⟩ | ⟨-, v, r, hp, hw, hr, -, hc⟩
  · exact absurd hc hpos
  · exact ⟨v, r, by rw [exec_getOf, hp, complete_ok], hw, by rw [hr], hc⟩

end

/-- Operation `i`, then `j` served to agent `c` with the inputs `is` ahead: `i` answers `q` to its own agent and `j` answers `q'` to
`c`. What lies between leaves the tasks and the outside as they were. -/
def Answers (i j : Instr) (s : State) (q q' : Response) (c : Agent) (is : List Input) : Prop :=
  ∃ s₁ s₂, exec i s = .next s₁ ∧ exec j (s₁.taking c is) = .next s₂ ∧
    s₁.params = s.params ∧ s₁.inputs = s.inputs ∧ s₁.serving = s.serving ∧ (∀ a, s₁.task a = s.task a) ∧
    s₂.inputs = is ∧ s₂.trace = s.trace ++ [.response s.serving q, .response c q']

section
variable {s : State} {x : RingId} (a : Byte) (h : (s.ring x).Wf s.params.capacity) (c : Agent) (is : List Input)
include h

/-- On a full buffer the byte taken makes room for the byte stored. -/
theorem get_put_of_full (hfull : (s.ring x).count = s.params.capacity) :
    ∃ v, Answers (getOf x) (putOf a x) s { ok := true, d0 := v } { ok := true } c is := by
  have hpos := h.pos
  obtain ⟨v, r, hg, hw, hr, -⟩ := exec_getOf_stored h (by omega)
  obtain ⟨r', hp, -⟩ := exec_putOf_room (x := x) (s := ((s.setRing x r).respond { ok := true, d0 := v }).taking c is)
    a (by simpa using hw) (by simp; omega)
  exact ⟨v, _, _, hg, hp, by simp⟩

theorem put_get_of_full (hfull : (s.ring x).count = s.params.capacity) :
    ∃ v, Answers (putOf a x) (getOf x) s { cond := .bufferFull } { ok := true, d0 := v } c is := by
  have hpos := h.pos
  obtain ⟨v, r, hg, -⟩ := exec_getOf_stored (x := x) (s := (s.respond { cond := .bufferFull }).taking c is)
    (by simpa using h) (by simp; omega)
  exact ⟨v, _, _, exec_putOf_full a hfull, hg, by simp⟩

/-- On an empty buffer the byte stored is the byte returned. -/
theorem put_get_of_empty (h0 : (s.ring x).count = 0) :
    Answers (putOf a x) (getOf x) s { ok := true } { ok := true, d0 := a } c is := by
  have hpos := h.pos
  obtain ⟨r, hp, hw, hc⟩ := exec_putOf_room a h (by omega)
  rw [h.contents_eq_nil h0, List.nil_append] at hc
  have hcount : r.count = 1 := by rw [← hw.length_contents, hc]; rfl
  obtain ⟨v, r', hg, -, -, hc'⟩ := exec_getOf_stored (x := x) (s := ((s.setRing x r).respond { ok := true }).taking c is)
    (by simpa using hw) (by simp [hcount])
  obtain ⟨rfl, -⟩ : a = v ∧ _ := by simpa [hc] using hc'
  exact ⟨_, _, hp, hg, by simp⟩

theorem get_put_of_empty (h0 : (s.ring x).count = 0) :
    Answers (getOf x) (putOf a x) s { cond := .bufferEmpty } { ok := true } c is := by
  have hpos := h.pos
  obtain ⟨r, hp, -⟩ := exec_putOf_room (x := x) (s := (s.respond { cond := .bufferEmpty }).taking c is)
    a (by simpa using h) (by simp; omega)
  exact ⟨_, _, exec_getOf_empty h0, hp, by simp⟩

end

section
variable {s : State} {i j : Instr} {q q' : Response}

/-- Two operations of one agent, one right after the other. -/
theorem Answers.exec (h : Answers i j s q q' s.serving s.inputs) :
    ∃ s₁ s₂, exec i s = .next s₁ ∧ exec j s₁ = .next s₂ ∧
      s₂.trace = s.trace ++ [.response s.serving q, .response s.serving q'] := by
  obtain ⟨s₁, s₂, h₁, h₂, -, hi, hs, -, -, htr⟩ := h
  rw [← hi, ← hs] at h₂
  exact ⟨s₁, s₂, h₁, h₂, htr⟩

/-- Two requests, of any two free agents, as two steps of the machine. -/
theorem Answers.run {a b : Agent} {rest : List Input}
    (h : Answers i j (s.taking a (.request b (encode j) :: rest)) q q' b rest) (hl : s.params.Legal)
    (ha : s.task a = none) (hb : s.task b = none)
    (hi : s.inputs = .request a (encode i) :: .request b (encode j) :: rest) :
    ∃ t, Host.Core.run Sys2Proof.core 2 s = .next t ∧ t.inputs = rest ∧
      t.trace = s.trace ++ [.response a q, .response b q'] := by
  obtain ⟨s₁, s₂, h₁, h₂, hp, hi₁, -, ht, hi₂, htr⟩ := h
  have first : step s = .next s₁ := (step_request hl hi ha (decode_encode i)).trans h₁
  have second : step s₁ = .next s₂ :=
    (step_request (hp ▸ hl) hi₁ ((ht b).trans hb) (decode_encode j)).trans h₂
  exact ⟨s₂, (run_succ first).trans (run_succ second), hi₂, htr⟩

end

/-- Settles O14: what each pair of operations answers, said of one agent's operations and of two agents' requests. -/
theorem bothOrdersOfPutAndGet : Obligations.BothOrdersOfPutAndGet := by
  refine ⟨fun x a s h => ⟨fun hfull => ⟨?_, ?_⟩, fun h0 => ⟨?_, ?_⟩⟩, fun x v a b rest s hl h ha hb =>
    ⟨fun hfull => ⟨fun hi => ?_, fun hi => ?_⟩, fun h0 => ⟨fun hi => ?_, fun hi => ?_⟩⟩⟩
  · obtain ⟨v, hv⟩ := get_put_of_full a h s.serving s.inputs hfull
    obtain ⟨s₁, s₂, hs⟩ := hv.exec
    exact ⟨s₁, s₂, v, hs⟩
  · obtain ⟨v, hv⟩ := put_get_of_full a h s.serving s.inputs hfull
    obtain ⟨s₁, s₂, hs⟩ := hv.exec
    exact ⟨s₁, s₂, v, hs⟩
  · exact (put_get_of_empty a h _ _ h0).exec
  · exact (get_put_of_empty a h _ _ h0).exec
  · obtain ⟨u, hu⟩ := get_put_of_full (s := s.taking b _) v h a rest hfull
    obtain ⟨t, ht⟩ := hu.run hl hb ha hi
    exact ⟨t, u, ht⟩
  · obtain ⟨u, hu⟩ := put_get_of_full (s := s.taking a _) v h b rest hfull
    obtain ⟨t, ht⟩ := hu.run hl ha hb hi
    exact ⟨t, u, ht⟩
  · exact (put_get_of_empty (s := s.taking a _) v h b rest h0).run hl ha hb hi
  · exact (get_put_of_empty (s := s.taking b _) v h a rest h0).run hl hb ha hi

/-! ### The two buffers are independent (20 R74) -/

/-- What `i` does is decided by the configuration and buffer `x`: it leaves the buffer `r` there and answers `q`. -/
def ActsOnRing (x : RingId) (i : Instr) (s : State) : Prop :=
  ∃ r q, ∀ u : State, u.params = s.params → u.ring x = s.ring x → exec i u = .next ((u.setRing x r).respond q)

/-- `i` writes `rx`, the assembler and the trace, and what it writes does not depend on `tx`, the pacer or the trace. -/
def RxLocal (i : Instr) (s : State) : Prop :=
  ∃ r fa out, ∀ tx armed ds tr, exec i { s with tx := tx, armed := armed, outstanding := ds, trace := tr } =
    .next { s with tx := tx, armed := armed, outstanding := ds, rx := r, fa := fa, trace := tr ++ out }

/-- `i` writes `tx`, the pacer and the trace, and what it writes does not depend on `rx`, the assembler or the trace. -/
def TxLocal (i : Instr) (s : State) : Prop :=
  ∃ r armed ds out, ∀ rx fa tr, exec i { s with rx := rx, fa := fa, trace := tr } =
    .next { s with rx := rx, fa := fa, tx := r, armed := armed, outstanding := ds, trace := tr ++ out }

section
variable {s : State} {i : Instr} {x : RingId}

theorem ActsOnRing.rxLocal (h : ActsOnRing .rx i s) : RxLocal i s := by
  obtain ⟨r, q, hr⟩ := h
  exact ⟨r, s.fa, [.response s.serving q], fun _ _ _ _ => hr _ rfl rfl⟩

theorem ActsOnRing.txLocal (h : ActsOnRing .tx i s) : TxLocal i s := by
  obtain ⟨r, q, hr⟩ := h
  exact ⟨r, s.armed, s.outstanding, [.response s.serving q], fun _ _ _ => hr _ rfl rfl⟩

theorem setRing_ring_self (x : RingId) (s : State) : s.setRing x (s.ring x) = s := by cases x <;> rfl

theorem initOf_actsOnRing : ActsOnRing x (initOf x) s :=
  ⟨(s.ring x).clear, { ok := true }, fun u _ hr => by rw [exec_initOf, ← hr]; rfl⟩

theorem putOf_actsOnRing (a : Byte) (h : (s.ring x).Wf s.params.capacity) : ActsOnRing x (putOf a x) s := by
  rcases h.put a with ⟨-, hp⟩ | ⟨-, r, hp, -⟩
  · refine ⟨s.ring x, { cond := .bufferFull }, fun u hu hr => ?_⟩
    have hself : u.setRing x (s.ring x) = u := hr ▸ setRing_ring_self x u
    simp [exec_putOf, putByte, hu, hr, hp, hself]
  · refine ⟨r, { ok := true }, fun u hu hr => ?_⟩
    simp [exec_putOf, putByte, hu, hr, hp]

theorem getOf_actsOnRing (h : (s.ring x).Wf s.params.capacity) : ActsOnRing x (getOf x) s := by
  rcases h.get with ⟨-, hg⟩ | ⟨-, v, r, hg, -⟩
  · refine ⟨s.ring x, { cond := .bufferEmpty }, fun u hu hr => ?_⟩
    have hself : u.setRing x (s.ring x) = u := hr ▸ setRing_ring_self x u
    simp [exec_getOf, getByte, hu, hr, hg, hself]
  · refine ⟨r, { ok := true, d0 := v }, fun u hu hr => ?_⟩
    simp [exec_getOf, getByte, hu, hr, hg]

theorem emitVerdict_appends (v : Verdict) : ∃ out, ∀ u : State, emitVerdict v u = { u with trace := u.trace ++ out } := by
  cases v with
  | stored => exact ⟨[], fun u => by simp [emitVerdict]⟩
  | frame f => exact ⟨_, fun u => rfl⟩
  | mismatch => exact ⟨[], fun u => by simp [emitVerdict]⟩

theorem faStep_rxLocal (h : s.rx.Wf s.params.capacity) : RxLocal .faStep s := by
  rcases h.get with ⟨-, hg⟩ | ⟨-, v, r, hg, -⟩
  · refine ⟨s.rx, s.fa, [.response s.serving { cond := .bufferEmpty }], fun _ _ _ _ => ?_⟩
    simp [exec, execFaStep, faStep, hg, State.respond]
  · obtain ⟨out, hout⟩ := emitVerdict_appends (accept s.fa v).2
    refine ⟨r, (accept s.fa v).1, out ++ [.response s.serving (stepResponse (accept s.fa v).2)], fun _ _ _ _ => ?_⟩
    simp [exec, execFaStep, faStep, hg, hout, State.respond]

theorem tpFire_txLocal (h : s.tx.Wf s.params.capacity) : TxLocal .tpFire s := by
  rcases h.get with ⟨-, hg⟩ | ⟨-, v, r, hg, -⟩
  · refine ⟨s.tx, false, s.outstanding, [.response s.serving { cond := .bufferEmpty }], fun _ _ _ => ?_⟩
    simp [exec, execTpFire, tpFire, hg, State.respond]
  · refine ⟨r, true, s.outstanding ++ [bytePeriod s.params], [.tx v, .sched (bytePeriod s.params),
      .response s.serving { ok := true, txb := true, sched := true, d0 := v }], fun _ _ _ => ?_⟩
    simp [exec, execTpFire, tpFire, hg, State.respond, State.schedule, State.emit]

theorem rxPrimitive_rxLocal (h : s.rx.Wf s.params.capacity) (hi : rxPrimitive i = true) : RxLocal i s := by
  cases i with
  | rxbInit => exact (initOf_actsOnRing (x := .rx)).rxLocal
  | rxbPut a => exact (putOf_actsOnRing (x := .rx) a h).rxLocal
  | rxbGet => exact (getOf_actsOnRing (x := .rx) h).rxLocal
  | faStep => exact faStep_rxLocal h
  | txbInit | txbPut | txbGet | faInit | tryGetFrame | feEncode | fePutFrame | tpInit | tpFire | tpArm | reset => cases hi

theorem txPrimitive_txLocal (h : s.tx.Wf s.params.capacity) (hi : txPrimitive i = true) : TxLocal i s := by
  cases i with
  | txbInit => exact (initOf_actsOnRing (x := .tx)).txLocal
  | txbPut a => exact (putOf_actsOnRing (x := .tx) a h).txLocal
  | txbGet => exact (getOf_actsOnRing (x := .tx) h).txLocal
  | tpFire => exact tpFire_txLocal h
  | rxbInit | rxbPut | rxbGet | faInit | faStep | tryGetFrame | feEncode | fePutFrame | tpInit | tpArm | reset => cases hi

end

/-- Settles O15: neither primitive reads or writes what the other writes, but for the trace, to which both append. -/
theorem rxAndTxPrimitivesCommute : Obligations.RxAndTxPrimitivesCommute := by
  intro i j s h hi hj
  obtain ⟨r, fa, oi, hrx⟩ := rxPrimitive_rxLocal h.rx hi
  obtain ⟨r', armed, ds, oj, htx⟩ := txPrimitive_txLocal h.tx hj
  exact ⟨_, _, _, _, oi, oj, hrx s.tx s.armed s.outstanding s.trace, htx r fa _, htx s.rx s.fa s.trace,
    hrx r' armed ds _, rfl, rfl, rfl⟩

end Sys2Proof.Machine
end

section
/-! PROOFS of 20_memory.md, section 1, and 10_state.md, sections 2 and 7: what no agent can observe. Two states that meet the
invariant and show the same view are followed through every primitive, turn and step: both answer a next state, with the same
response, and the states after show the same view again. -/

namespace Sys2Proof.Machine

/-- Two states of the invariant that no agent can tell apart. -/
structure State.Twins (s t : State) : Prop where
  left : s.Inv
  right : t.Inv
  view : s.SameView t

/-- Two primitives that complete with the same response and leave the same view. -/
def ResultsAlike (p p' : Result) : Prop :=
  ∃ u v q, p = .ok (u, q) ∧ p' = .ok (v, q) ∧ u.SameView v

/-- Two steps that answer next states with the same view. -/
def OutcomesAlike (o o' : Host.Outcome State Fault Refusal) : Prop :=
  ∃ u v, o = .next u ∧ o' = .next v ∧ u.SameView v

/-! ### Assemblers with the same live window -/

/-- The automaton reads the live part of the window only (10 R41), and what it leaves live comes from that and the byte. -/
theorem accept_alike {fa fa' : Assembler} (hs : fa.state = fa'.state) (hw : fa.liveWindow = fa'.liveWindow) (b : Byte) :
    (accept fa b).2 = (accept fa' b).2 ∧ (accept fa b).1.state = (accept fa' b).1.state ∧
      (accept fa b).1.liveWindow = (accept fa' b).1.liveWindow := by
  obtain ⟨st, c, p1, p2, p3, k⟩ := fa
  obtain ⟨st', c', p1', p2', p3', k'⟩ := fa'
  obtain rfl : st = st' := hs
  cases st <;> simp only [Assembler.liveWindow, List.cons.injEq, and_true] at hw
  case awaitCommand => exact ⟨rfl, rfl, rfl⟩
  case awaitParam1 => subst hw; exact ⟨rfl, rfl, rfl⟩
  case awaitParam2 => obtain ⟨rfl, rfl⟩ := hw; exact ⟨rfl, rfl, rfl⟩
  case awaitParam3 => obtain ⟨rfl, rfl, rfl⟩ := hw; exact ⟨rfl, rfl, rfl⟩
  case awaitChecksum =>
    obtain ⟨rfl, rfl, rfl, rfl⟩ := hw
    by_cases hb : b = cks c p1 p2 p3
    · rw [accept_match (w := ⟨c, p1, p2, p3, k⟩) hb, accept_match (w := ⟨c, p1, p2, p3, k'⟩) hb]
      exact ⟨rfl, rfl, rfl⟩
    · rw [accept_mismatch (w := ⟨c, p1, p2, p3, k⟩) hb, accept_mismatch (w := ⟨c, p1, p2, p3, k'⟩) hb]
      exact ⟨rfl, rfl, rfl⟩

/-! ### The view under the updates of the state -/

section
variable {s t : State}

theorem State.SameView.task (h : s.SameView t) (a : Agent) : s.task a = t.task a := by
  cases a with
  | poll => exact h.pollTask
  | rxi => exact h.rxiTask
  | tmr => exact h.tmrTask

theorem State.SameView.setTask (h : s.SameView t) (a : Agent) (k : Option Task) :
    (s.setTask a k).SameView (t.setTask a k) := by
  cases a with
  | poll => exact { h with pollTask := rfl }
  | rxi => exact { h with rxiTask := rfl }
  | tmr => exact { h with tmrTask := rfl }

theorem State.SameView.emit (h : s.SameView t) (o : Output) : (s.emit o).SameView (t.emit o) :=
  { h with trace := by simp [h.trace] }

theorem State.SameView.respond (h : s.SameView t) (q : Response) : (s.respond q).SameView (t.respond q) :=
  { h with trace := by simp [h.trace, h.serving] }

theorem State.SameView.schedule (h : s.SameView t) (d : Nat) : (s.schedule d).SameView (t.schedule d) :=
  { h with trace := by simp [h.trace], outstanding := by simp [h.outstanding] }

theorem State.SameView.setArmed (h : s.SameView t) (b : Bool) :
    State.SameView { s with armed := b } { t with armed := b } :=
  { h with armed := rfl }

theorem State.SameView.setRing {x : RingId} {r r' : Ring} (h : s.SameView t)
    (hr : r.contents s.params.capacity = r'.contents s.params.capacity) : (s.setRing x r).SameView (t.setRing x r') := by
  rw [h.params] at hr
  cases x with
  | rx => exact { h with rx := h.params ▸ hr }
  | tx => exact { h with tx := h.params ▸ hr }

theorem State.SameView.emitVerdict (h : s.SameView t) (v : Verdict) : (emitVerdict v s).SameView (emitVerdict v t) := by
  cases v with
  | stored => exact h
  | frame f => exact h.emit _
  | mismatch => exact h

end

/-! ### Twins under what is set before a primitive -/

section
variable {s t : State}

theorem State.Twins.serve (h : s.Twins t) (a : Agent) : State.Twins { s with serving := a } { t with serving := a } :=
  ⟨h.left.of_eq rfl rfl rfl, h.right.of_eq rfl rfl rfl, { h.view with serving := rfl }⟩

theorem State.Twins.setInputs (h : s.Twins t) (is : List Input) :
    State.Twins { s with inputs := is } { t with inputs := is } :=
  ⟨h.left.of_eq rfl rfl rfl, h.right.of_eq rfl rfl rfl, { h.view with inputs := rfl }⟩

theorem State.Twins.setOutstanding (h : s.Twins t) (ds : List Nat) :
    State.Twins { s with outstanding := ds } { t with outstanding := ds } :=
  ⟨h.left.of_eq rfl rfl rfl, h.right.of_eq rfl rfl rfl, { h.view with outstanding := rfl }⟩

theorem State.Twins.setFreeCount (h : s.Twins t) (n : Nat) :
    State.Twins { s with freeCount := n } { t with freeCount := n } :=
  ⟨h.left.of_eq rfl rfl rfl, h.right.of_eq rfl rfl rfl, { h.view with freeCount := rfl }⟩

theorem State.Twins.wf_right (h : s.Twins t) (x : RingId) : (t.ring x).Wf s.params.capacity :=
  h.view.params ▸ h.right.ring x

theorem State.Twins.contents (h : s.Twins t) (x : RingId) :
    (s.ring x).contents s.params.capacity = (t.ring x).contents s.params.capacity := by
  cases x with
  | rx => exact h.view.rx.trans (by rw [h.view.params]; rfl)
  | tx => exact h.view.tx.trans (by rw [h.view.params]; rfl)

theorem State.Twins.count (h : s.Twins t) (x : RingId) : (s.ring x).count = (t.ring x).count := by
  rw [← (h.left.ring x).length_contents, h.contents x, (h.wf_right x).length_contents]

/-- Both buffers refuse a byte, or both take it. -/
theorem State.Twins.put (h : s.Twins t) (x : RingId) (a : Byte) :
    ((s.ring x).put s.params.capacity a = .ok none ∧ (t.ring x).put t.params.capacity a = .ok none) ∨
    ∃ r r' : Ring, (s.ring x).put s.params.capacity a = .ok (some r) ∧ (t.ring x).put t.params.capacity a = .ok (some r') ∧
      r.contents s.params.capacity = r'.contents s.params.capacity := by
  have hn := h.count x
  rw [← h.view.params]
  rcases (h.left.ring x).put a with ⟨h0, hp⟩ | ⟨h0, r, hp, -, -, hc⟩ <;>
    rcases (h.wf_right x).put a with ⟨h0', hp'⟩ | ⟨h0', r', hp', -, -, hc'⟩
  · exact .inl ⟨hp, hp'⟩
  · omega
  · omega
  · exact .inr ⟨r, r', hp, hp', by rw [hc, hc', h.contents]⟩

/-- Both buffers are empty, or both hand out the same byte. -/
theorem State.Twins.get (h : s.Twins t) (x : RingId) :
    ((s.ring x).get s.params.capacity = .ok none ∧ (t.ring x).get t.params.capacity = .ok none) ∨
    ∃ (b : Byte) (r r' : Ring), (s.ring x).get s.params.capacity = .ok (some (b, r)) ∧
      (t.ring x).get t.params.capacity = .ok (some (b, r')) ∧
      r.contents s.params.capacity = r'.contents s.params.capacity := by
  have hn := h.count x
  have hl := h.contents x
  rw [← h.view.params]
  rcases (h.left.ring x).get with ⟨h0, hg⟩ | ⟨h0, b, r, hg, -, -, -, hc⟩ <;>
    rcases (h.wf_right x).get with ⟨h0', hg'⟩ | ⟨h0', b', r', hg', -, -, -, hc'⟩
  · exact .inl ⟨hg, hg'⟩
  · omega
  · omega
  · rw [hc, hc'] at hl
    injection hl with hb hl
    exact .inr ⟨b, r, r', hg, hb ▸ hg', hl⟩

end

/-! ### Primitives -/

section
variable {s t : State}

theorem initRing_alike (h : s.Twins t) (x : RingId) : ResultsAlike (initRing x s) (initRing x t) :=
  ⟨_, _, _, rfl, rfl, h.view.setRing rfl⟩

theorem putByte_alike (h : s.Twins t) (x : RingId) (a : Byte) : ResultsAlike (putByte x a s) (putByte x a t) := by
  unfold putByte
  rcases h.put x a with ⟨hp, hp'⟩ | ⟨r, r', hp, hp', hc⟩ <;> simp only [hp, hp']
  · exact ⟨_, _, _, rfl, rfl, h.view⟩
  · exact ⟨_, _, _, rfl, rfl, h.view.setRing hc⟩

theorem getByte_alike (h : s.Twins t) (x : RingId) : ResultsAlike (getByte x s) (getByte x t) := by
  unfold getByte
  rcases h.get x with ⟨hg, hg'⟩ | ⟨b, r, r', hg, hg', hc⟩ <;> simp only [hg, hg']
  · exact ⟨_, _, _, rfl, rfl, h.view⟩
  · exact ⟨_, _, _, rfl, rfl, h.view.setRing hc⟩

theorem faInit_alike (h : s.Twins t) : ResultsAlike (faInit s) (faInit t) := by
  unfold faInit
  rw [← h.view.freeCount]
  exact ⟨_, _, _, rfl, rfl, { h.view with faState := rfl, window := rfl, freeCount := rfl }⟩

theorem faStep_alike (h : s.Twins t) : ResultsAlike (faStep s) (faStep t) := by
  unfold faStep
  simp only [← ring_rx]
  rcases h.get .rx with ⟨hg, hg'⟩ | ⟨b, r, r', hg, hg', hc⟩ <;> simp only [hg, hg']
  · exact ⟨_, _, _, rfl, rfl, h.view⟩
  · obtain ⟨hv, hst, hw⟩ := accept_alike h.view.faState h.view.window b
    have hset : State.SameView { s with rx := r, fa := (accept s.fa b).1 } { t with rx := r', fa := (accept t.fa b).1 } :=
      { h.view.setRing (x := .rx) hc with faState := hst, window := hw }
    simp only [← hv]
    exact ⟨_, _, _, rfl, rfl, hset.emitVerdict _⟩

theorem tpInit_alike (h : s.Twins t) : ResultsAlike (tpInit s) (tpInit t) :=
  ⟨_, _, _, rfl, rfl, h.view.setArmed false⟩

theorem tpFire_alike (h : s.Twins t) : ResultsAlike (tpFire s) (tpFire t) := by
  have hperiod : bytePeriod t.params = bytePeriod s.params := by rw [h.view.params]
  unfold tpFire
  simp only [← ring_tx, hperiod]
  rcases h.get .tx with ⟨hg, hg'⟩ | ⟨b, r, r', hg, hg', hc⟩ <;> simp only [hg, hg']
  · exact ⟨_, _, _, rfl, rfl, h.view.setArmed false⟩
  · exact ⟨_, _, _, rfl, rfl, (((h.view.setRing (x := .tx) hc).emit _).schedule _).setArmed true⟩

theorem tpArm_alike (h : s.Twins t) : ResultsAlike (tpArm s) (tpArm t) := by
  unfold tpArm
  rw [← h.view.armed, ← h.view.params]
  split
  · exact ⟨_, _, _, rfl, rfl, h.view⟩
  · exact ⟨_, _, _, rfl, rfl, (h.view.schedule _).setArmed true⟩

theorem resetCore_alike (h : s.Twins t) : (resetCore s).SameView (resetCore t) := by
  unfold resetCore
  rw [← h.view.freeCount]
  exact { h.view with rx := rfl, tx := rfl, faState := rfl, window := rfl, armed := rfl, freeCount := rfl }

end

/-! ### Operations and turns -/

section
variable {s t u v : State}

theorem complete_alike {p p' : Result} (h : ResultsAlike p p') : OutcomesAlike (complete p) (complete p') := by
  obtain ⟨u, v, q, rfl, rfl, h⟩ := h
  exact ⟨_, _, rfl, rfl, h.respond q⟩

theorem finish_alike (h : u.SameView v) (q : Response) : OutcomesAlike (finish q u) (finish q v) := by
  unfold finish
  rw [← h.serving]
  exact ⟨_, _, rfl, rfl, (h.setTask _ _).respond q⟩

theorem goOn_alike (h : u.SameView v) (k : Task) : OutcomesAlike (goOn k u) (goOn k v) := by
  unfold goOn
  rw [← h.serving]
  exact ⟨_, _, rfl, rfl, h.setTask _ _⟩

theorem tryGetFrameTurn_alike (h : s.Twins t) : OutcomesAlike (tryGetFrameTurn s) (tryGetFrameTurn t) := by
  obtain ⟨u, v, q, hu, hv, h⟩ := faStep_alike h
  unfold tryGetFrameTurn
  simp only [hu, hv]
  split
  · exact finish_alike h _
  · split
    · exact goOn_alike h _
    · exact finish_alike h _

theorem reserveFrame_alike (h : s.Twins t) (c p1 p2 p3 : Byte) (thenArm : Bool) :
    OutcomesAlike (reserveFrame c p1 p2 p3 thenArm s) (reserveFrame c p1 p2 p3 thenArm t) := by
  have hn : s.tx.count = t.tx.count := h.count .tx
  unfold reserveFrame
  rw [← hn, ← h.view.params]
  split
  · exact finish_alike h.view _
  · exact goOn_alike h.view _

theorem frameStored_alike (h : u.SameView v) (thenArm : Bool) :
    OutcomesAlike (frameStored thenArm u) (frameStored thenArm v) := by
  cases thenArm with
  | true => exact goOn_alike (h.respond _) _
  | false => exact finish_alike h _

theorem putFrameTurn_alike (h : s.Twins t) (e : Frame5) (i : Fin 5) (thenArm : Bool) :
    OutcomesAlike (putFrameTurn e i thenArm s) (putFrameTurn e i thenArm t) := by
  obtain ⟨u, v, q, hu, hv, h⟩ := putByte_alike h .tx (frameByte e i)
  unfold putFrameTurn
  simp only [hu, hv]
  split
  · split
    · exact frameStored_alike h _
    · exact goOn_alike h _
  · exact finish_alike h _

theorem armTurn_alike (h : s.Twins t) : OutcomesAlike (armTurn s) (armTurn t) := by
  obtain ⟨u, v, q, hu, hv, h⟩ := tpArm_alike h
  unfold armTurn
  simp only [hu, hv]
  exact finish_alike h q

theorem drainTurn_alike (h : s.Twins t) : OutcomesAlike (drainTurn s) (drainTurn t) := by
  unfold drainTurn
  rw [← h.view.outstanding]
  obtain ⟨u, v, q, hu, hv, h⟩ := tpFire_alike (h.setOutstanding s.outstanding.tail)
  simp only [hu, hv]
  split
  · exact goOn_alike (h.respond q) _
  · exact finish_alike h q

theorem taskTurn_alike (h : s.Twins t) (k : Task) : OutcomesAlike (taskTurn k s) (taskTurn k t) := by
  cases k with
  | tryGetFrame => exact tryGetFrameTurn_alike h
  | putFrame e i thenArm => exact putFrameTurn_alike h e i thenArm
  | arm => exact armTurn_alike h
  | drain => exact drainTurn_alike h

theorem exec_alike (h : s.Twins t) (i : Instr) : OutcomesAlike (exec i s) (exec i t) := by
  cases i with
  | rxbInit => exact complete_alike (initRing_alike h .rx)
  | rxbPut a => exact complete_alike (putByte_alike h .rx a)
  | rxbGet => exact complete_alike (getByte_alike h .rx)
  | txbInit => exact complete_alike (initRing_alike h .tx)
  | txbPut a => exact complete_alike (putByte_alike h .tx a)
  | txbGet => exact complete_alike (getByte_alike h .tx)
  | faInit => exact complete_alike (faInit_alike h)
  | faStep => exact complete_alike (faStep_alike h)
  | tryGetFrame => exact tryGetFrameTurn_alike h
  | feEncode a b c d => exact ⟨_, _, rfl, rfl, h.view.respond _⟩
  | fePutFrame a b c d => exact reserveFrame_alike h a b c d false
  | tpInit => exact complete_alike (tpInit_alike h)
  | tpFire => exact complete_alike (tpFire_alike h)
  | tpArm => exact complete_alike (tpArm_alike h)
  | reset => exact ⟨_, _, rfl, rfl, (resetCore_alike h).respond _⟩

end

/-! ### Steps -/

section
variable {s t : State}

theorem serve_alike (h : s.Twins t) (a : Agent) (w : CommandWord) : OutcomesAlike (serve a w s) (serve a w t) := by
  cases hd : decode w with
  | ok i =>
    rw [serve_ok hd, serve_ok hd]
    exact exec_alike (h.serve a) i
  | error e =>
    rw [serve_error hd, serve_error hd]
    exact ⟨_, _, rfl, rfl, (h.serve a).view.respond _⟩

theorem resume_alike (h : s.Twins t) (a : Agent) : OutcomesAlike (resume a s) (resume a t) := by
  unfold resume
  rw [← h.view.task]
  split
  · exact taskTurn_alike (h.serve a) _
  · exact ⟨_, _, rfl, rfl, h.view⟩

theorem proceed_alike (h : s.Twins t) : OutcomesAlike (proceed s) (proceed t) := by
  have hb : busyAgents t = busyAgents s := by simp only [busyAgents, h.view.task]
  unfold proceed
  rw [hb, ← h.view.freeCount]
  split
  · exact ⟨_, _, rfl, rfl, h.view⟩
  · exact resume_alike h _
  · exact resume_alike (h.setFreeCount _) _

theorem perform_alike (h : s.Twins t) (i : Input) : OutcomesAlike (perform i s) (perform i t) := by
  cases i with
  | request a w => exact serve_alike h a w
  | rxEvent b =>
    cases b with
    | none => exact ⟨_, _, rfl, rfl, h.view⟩
    | some b => exact serve_alike h .rxi _
  | timerEvent k =>
    simp only [perform, ← h.view.outstanding]
    split
    · exact serve_alike (h.setOutstanding _) .tmr _
    · exact ⟨_, _, rfl, rfl, h.view⟩
  | resume a => exact resume_alike h a
  | resetLine => exact ⟨_, _, rfl, rfl, resetCore_alike h⟩
  | send a c p1 p2 p3 => exact reserveFrame_alike (h.serve a) c p1 p2 p3 true
  | drain => exact drainTurn_alike (h.serve .tmr)

theorem State.Twins.supply (h : s.Twins t) : s.supply.Twins t.supply := by
  cases hi : s.inputs with
  | cons i is =>
    rw [supply_of_inputs hi, supply_of_inputs (h.view.inputs ▸ hi)]
    exact h
  | nil =>
    have hi' : t.inputs = [] := h.view.inputs ▸ hi
    cases hl : s.later with
    | silent =>
      rw [supply_of_silent hl, supply_of_silent (h.view.later ▸ hl)]
      exact h
    | again is =>
      rw [supply_of_again hi hl, supply_of_again hi' (h.view.later ▸ hl)]
      exact h.setInputs is
    | free =>
      rw [supply_of_free hi hl, supply_of_free hi' (h.view.later ▸ hl), ← h.view.freeCount]
      exact (h.setInputs (Config.freeInput s.freeCount).toList).setFreeCount (s.freeCount + 1)

theorem attend_alike (h : s.Twins t) : OutcomesAlike (attend s) (attend t) := by
  have hw (i : Input) : waitsFor i t = waitsFor i s := by simp only [waitsFor, h.view.task]
  unfold attend
  simp only [hw, ← h.view.inputs]
  split
  · exact proceed_alike h
  · split
    · exact resume_alike h _
    · exact perform_alike (h.setInputs _) _

theorem step_alike (h : s.Twins t) : OutcomesAlike (step s) (step t) := by
  rw [step_legal h.left.legal, step_legal h.right.legal]
  exact attend_alike h.supply

end

/-- Settles O43: the simulation says that both states step, and that what they step to shows the same view. -/
theorem hiddenStateIsUnobservable : Obligations.HiddenStateIsUnobservable := by
  intro s t s' hs ht hview hstep
  obtain ⟨u, v, hu, hv, h⟩ := step_alike ⟨hs, ht, hview⟩
  obtain rfl : s' = u := by simpa [hstep] using hu
  exact ⟨v, hv, h⟩

end Sys2Proof.Machine
end

section
/-! PROOFS of 30_encoding.md, sections 1 to 4 and the source lines of section 6: command words, the response word, the wire frame,
source lines. -/

namespace Sys2Proof.Laws.CanonicalEncoding

/-- The facts of Laws/PerInstr, for every operation at once. -/
theorem holds (i : Instr) : Statement i :=
  match i with
  | .rxbInit => rxbInit
  | .rxbPut a => rxbPut a
  | .rxbGet => rxbGet
  | .txbInit => txbInit
  | .txbPut a => txbPut a
  | .txbGet => txbGet
  | .faInit => faInit
  | .faStep => faStep
  | .tryGetFrame => tryGetFrame
  | .feEncode a b c d => feEncode a b c d
  | .fePutFrame a b c d => fePutFrame a b c d
  | .tpInit => tpInit
  | .tpFire => tpFire
  | .tpArm => tpArm
  | .reset => reset

end Sys2Proof.Laws.CanonicalEncoding

namespace Sys2Proof.Machine

/-! ### Which words decode (30 R103 to R105) -/

/-- Two command words with the same `op` and the same bytes in the operand positions that form `f` uses (30 R94). -/
structure Agree (f : Form) (v w : CommandWord) : Prop where
  op : opField v = opField w
  a : f ≠ .formN → aField v = aField w
  bcd : f = .formQ → bField v = bField w ∧ cField v = cField w ∧ dField v = dField w

section
variable {f : Form} {u v w : CommandWord} {i : Instr}

theorem Agree.trans (h : Agree f u v) (k : Agree f v w) : Agree f u w where
  op := h.op.trans k.op
  a hf := (h.a hf).trans (k.a hf)
  bcd hf := by
    obtain ⟨hb, hc, hd⟩ := h.bcd hf
    obtain ⟨kb, kc, kd⟩ := k.bcd hf
    exact ⟨hb.trans kb, hc.trans kc, hd.trans kd⟩

/-- A word decodes to an operation exactly when it agrees with the canonical word on what the operation's form uses. -/
theorem decode_eq_ok_iff : decode w = .ok i ↔ Agree i.form w (encode i) := by
  constructor
  · intro h
    unfold decode at h
    split at h <;> cases h <;> constructor <;> simp [encode, Instr.form, *]
  · rintro ⟨hop, ha, hbcd⟩
    cases i <;> simp_all [decode, encode, Instr.form]

/-- A table word that is a command word stands for what that word decodes to. -/
theorem decodeTableWord_toNat (h : decode w = .ok i) : decodeTableWord 40 w.toNat = some i := by
  have hmod : w.toNat % 2 ^ 40 = w.toNat := Nat.mod_eq_of_lt w.isLt
  simp only [decodeTableWord, hmod, w.isLt, if_true, BitVec.ofNat_toNat, BitVec.setWidth_eq, h]

theorem decode_ok_of_mem_opCodes (h : opField w ∈ opCodes) : ∃ i, decode w = .ok i := by
  unfold decode
  split
  case h_16 => simp_all [opCodes]
  all_goals exact ⟨_, rfl⟩

end

section
open Laws.CanonicalEncoding

theorem code_mem_opCodes (i : Instr) : code i ∈ opCodes := by
  cases i <;> simp [code, opCodes]

theorem opField_mem_opCodes_iff {w : CommandWord} : opField w ∈ opCodes ↔ ∃ i, decode w = .ok i := by
  refine ⟨decode_ok_of_mem_opCodes, ?_⟩
  rintro ⟨i, h⟩
  rw [(decode_eq_ok_iff.mp h).op, (holds i).1]
  exact code_mem_opCodes i

end

/-- Settles O44: by the round trip through the decoder, which the table word shares. -/
theorem decodeInvertsEncode : Obligations.DecodeInvertsEncode :=
  fun i => ⟨decode_encode i, decodeTableWord_toNat (decode_encode i)⟩

/-- Settles O45: agreement with a word passes on agreement with the canonical word; the rest is the canonical encoding. -/
theorem unusedOperandBytesAreIgnored : Obligations.UnusedOperandBytesAreIgnored :=
  ⟨fun _ _ _ hv hop ha hbcd => decode_eq_ok_iff.mpr (.trans ⟨hop, ha, hbcd⟩ (decode_eq_ok_iff.mp hv)),
    fun i => (Laws.CanonicalEncoding.holds i).2⟩

/-- As numbers below 256, the listed codes are the fifteen. -/
theorem listedCodes_perm :
    ((List.range 256).filter fun n => opCodes.contains (BitVec.ofNat 8 n)).Perm (opCodes.map BitVec.toNat) := by
  refine (List.perm_ext_iff_of_nodup (List.nodup_range.filter _) (by decide)).mpr fun n => ?_
  simp only [List.mem_filter, List.mem_range, List.contains_iff_mem, List.mem_map]
  constructor
  · rintro ⟨hn, hmem⟩
    exact ⟨_, hmem, Nat.mod_eq_of_lt hn⟩
  · rintro ⟨b, hmem, rfl⟩
    exact ⟨b.isLt, by simpa using hmem⟩

theorem reservedCodes_length :
    ((List.range 256).filter fun n => !opCodes.contains (BitVec.ofNat 8 n)).length = 241 := by
  have hsplit := List.length_eq_length_filter_add (l := List.range 256) fun n => opCodes.contains (BitVec.ofNat 8 n)
  rw [listedCodes_perm.length_eq, List.length_range, List.length_map] at hsplit
  have hfifteen : opCodes.length = 15 := rfl
  omega

theorem decode_error_of_notMem_opCodes {w : CommandWord} (h : opField w ∉ opCodes) : ∃ e, decode w = .error e := by
  cases hd : decode w with
  | error e => exact ⟨e, rfl⟩
  | ok i => exact absurd (opField_mem_opCodes_iff.mpr ⟨i, hd⟩) h

/-- Settles O46: the codes of the table are those that decode; a free agent's request is served at once. -/
theorem reservedOpAnswersIllegal : Obligations.ReservedOpAnswersIllegal := by
  refine ⟨fun _ => opField_mem_opCodes_iff, reservedCodes_length, fun s a w rest hl hi ha hop => ?_⟩
  obtain ⟨e, he⟩ := decode_error_of_notMem_opCodes hop
  rw [step_perform hl hi (by simp [waitsFor, Input.starter, ha]), perform, serve_error he]

/-- Settles O47: six are canonical words; one has other bytes where its form uses none, one is a reserved code. -/
theorem specWordsDecode : Obligations.SpecWordsDecode :=
  ⟨decode_encode (.rxbPut 0x99), decode_encode .txbInit, decode_encode .faStep, decode_encode (.feEncode 0x12 0x34 0x56 0x78),
    decode_encode (.fePutFrame 0x04 0 0 0), by decide, decode_encode .reset, by decide⟩

/-! ### The response word (30 R95) -/

section
variable (r : Response)

theorem extract_responseWord (k : Nat) (hk : k + 8 ≤ 40) :
    (responseWord r).extractLsb' k 8 = (packCommand r.d0 r.d1 r.d2 r.d3 r.d4).extractLsb' k 8 := by
  apply BitVec.eq_of_getLsbD_eq
  intro i hi
  simp only [BitVec.getLsbD_extractLsb', responseWord_data r (k + i) (by omega), packCommand]

theorem responseFlags_bits :
    (responseFlags r).getLsbD 7 = r.ok ∧ (responseFlags r).getLsbD 6 = r.valid ∧ (responseFlags r).getLsbD 5 = r.consumed ∧
    (responseFlags r).getLsbD 4 = r.txb ∧ (responseFlags r).getLsbD 3 = r.sched := by
  simp only [responseFlags, BitVec.getLsbD_append]
  simp

theorem cond_responseWord : (responseWord r).extractLsb' 40 3 = condCode r.cond := by
  apply BitVec.eq_of_getLsbD_eq
  intro i hi
  simp only [BitVec.getLsbD_extractLsb', responseWord_flags, responseFlags, BitVec.getLsbD_append, hi]
  simp

end

/-- Settles O48: flags and condition from the top byte; `d0` to `d4` as the five fields of a packed command word. -/
theorem responseWordLayout : Obligations.ResponseWordLayout := by
  refine ⟨⟨rfl, rfl, rfl, rfl, rfl, rfl⟩, fun r => ?_⟩
  obtain ⟨hok, hvalid, hconsumed, htxb, hsched⟩ := responseFlags_bits r
  refine ⟨?_, ?_, ?_, ?_, ?_, cond_responseWord r, ?_, ?_, ?_, ?_, ?_⟩
  · exact (responseWord_flags r 7).trans hok
  · exact (responseWord_flags r 6).trans hvalid
  · exact (responseWord_flags r 5).trans hconsumed
  · exact (responseWord_flags r 4).trans htxb
  · exact (responseWord_flags r 3).trans hsched
  · exact (extract_responseWord r 32 (by decide)).trans (opField_packCommand ..)
  · exact (extract_responseWord r 24 (by decide)).trans (aField_packCommand ..)
  · exact (extract_responseWord r 16 (by decide)).trans (bField_packCommand ..)
  · exact (extract_responseWord r 8 (by decide)).trans (cField_packCommand ..)
  · exact (extract_responseWord r 0 (by decide)).trans (dField_packCommand ..)

/-! ### The wire frame (30 R97 to R100) -/

/-- The XOR of the five bytes of a frame, which is 0 for the valid ones (30 R100). -/
def Frame5.residue (f : Frame5) : Byte := f.checksum ^^^ f.command ^^^ f.param1 ^^^ f.param2 ^^^ f.param3

section
variable {f : Frame5}

theorem Frame5.valid_iff : f.Valid ↔ f.residue = 0 := by
  rw [Frame5.Valid]
  simp only [Frame5.residue, cks, BitVec.xor_assoc, BitVec.ofNat_eq_ofNat, BitVec.xor_eq_zero_iff]

theorem Frame5.residue_flip (i : Fin 5) (x : Byte) : (f.flip i x).residue = f.residue ^^^ x := by
  match i with
  | 0 | 1 | 2 | 3 | 4 => simp only [Frame5.residue, Frame5.flip]; ac_rfl

theorem decodeFrame_of_not_valid (h : ¬ f.Valid) : decodeFrame f = none := if_neg h

end

/-- Settles O26: a frame is valid when its five bytes XOR to 0, and each change adds its difference to that XOR. -/
theorem frameIdentities : Obligations.FrameIdentities := by
  refine ⟨fun c p1 p2 p3 => if_pos rfl, fun c p1 p2 p3 => ?_, fun f i x hf hx => ?_, fun f i j x hf _ => ?_⟩
  · exact (Frame5.valid_iff (f := encodeFrame c p1 p2 p3)).mp rfl
  · apply decodeFrame_of_not_valid
    rw [Frame5.valid_iff, Frame5.residue_flip, Frame5.valid_iff.mp hf]
    simpa using hx
  · rw [Frame5.valid_iff, Frame5.residue_flip, Frame5.residue_flip, Frame5.valid_iff.mp hf]
    simp

/-! ### Source lines (30 R107) -/

/-- A byte is below 256, as a source line's check writes it. -/
theorem byte_lt (b : Byte) : b.toNat < 256 := b.isLt

section
variable (a : Agent) (i : Instr)

theorem lineOf_wellFormed : (lineOf a i).WellFormed := by
  cases i <;> simp [lineOf, AsmLine.WellFormed, AsmLine.AgentOk, Mnemonic.arity, Mnemonic.owner, byte_lt]

theorem lineAgent_lineOf : lineAgent (lineOf a i) = a := by
  cases i <;> rfl

theorem lineOf_mnemonic_eq_tpFire_iff : (lineOf a i).mnemonic = .tpFire ↔ i = .tpFire := by
  cases i <;> simp [lineOf]

theorem instrOf_lineOf :
    instrOf (lineOf a i).mnemonic ((lineOf a i).operands.map (BitVec.ofNat 8)) = some i := by
  cases i <;> simp [lineOf, instrOf, withByte, withFourBytes]

end

/-- A well-formed line whose mnemonic is an operation's asks for it, but for `TMR: TP_FIRE`. -/
theorem assemble_of_instrOf {l : AsmLine} {i : Instr} (hl : l.WellFormed)
    (hi : instrOf l.mnemonic (l.operands.map (BitVec.ofNat 8)) = some i) :
    assemble l = if lineAgent l = .tmr ∧ l.mnemonic = .tpFire then some (.timerEvent 0)
      else some (.request (lineAgent l) (encode i)) := by
  unfold assemble
  rw [if_pos hl]
  split
  case h_4 => simp only [hi, Option.map_some]
  all_goals simp_all [instrOf]

/-- Settles O49: the line of an operation is well formed and names that operation. -/
theorem sourceLinesAssemble : Obligations.SourceLinesAssemble := by
  intro a i
  rw [assemble_of_instrOf (lineOf_wellFormed a i) (instrOf_lineOf a i)]
  simp only [lineAgent_lineOf, lineOf_mnemonic_eq_tpFire_iff]

end Sys2Proof.Machine
end

section
/-! PROOFS of 30_encoding.md, section 6: `SEND` and `DRAIN`, undisturbed. -/

namespace Sys2Proof.Machine

/-! ### One agent at work, undisturbed -/

/-- Agent `a` alone has something to do, `k` next, and nothing is asked from outside, now or later. -/
structure State.Alone (s : State) (a : Agent) (k : Task) : Prop where
  inv : s.Inv
  inputs : s.inputs = []
  later : s.later = .silent
  task : s.task a = some k
  others : ∀ b, b ≠ a → s.task b = none

section
variable {s : State} {a : Agent} {k : Task}

theorem State.Alone.step_eq (h : s.Alone a k) : step s = taskTurn k { s with serving := a } := by
  have hbusy : busyAgents s = [a] := by
    cases a <;> simp [busyAgents, h.task, h.others]
  rw [step_listed h.inv.legal (.inr h.later), attend, h.inputs]
  simp [proceed, hbusy, resume, h.task, ← h.inputs]

/-- An agent that goes on, with no other busy. -/
theorem State.Inv.alone_setTask (h : s.Inv) (hi : s.inputs = []) (hq : s.later = .silent)
    (ho : ∀ b, b ≠ a → s.task b = none) : (s.setTask a (some k)).Alone a k where
  inv := h.of_eq (setTask_params ..) (setTask_rx ..) (setTask_tx ..)
  inputs := (setTask_inputs ..).trans hi
  later := (setTask_later ..).trans hq
  task := task_setTask_same ..
  others b hb := (task_setTask_other _ _ _ b hb.symm).trans (ho b hb)

end

/-! ### Turns from a state whose buffer is in order -/

section
variable {s : State}

theorem reserveFrame_room (c p1 p2 p3 : Byte) (thenArm : Bool) (h : s.tx.count + 5 ≤ s.params.capacity) :
    reserveFrame c p1 p2 p3 thenArm s = .next (s.setTask s.serving (some (.putFrame (encodeFrame c p1 p2 p3) 0 thenArm))) :=
  if_neg (Nat.not_lt.mpr h)

theorem reserveFrame_full (c p1 p2 p3 : Byte) (thenArm : Bool) (h : s.params.capacity < s.tx.count + 5) :
    reserveFrame c p1 p2 p3 thenArm s = .next ((s.setTask s.serving none).respond { cond := .bufferFull }) :=
  if_pos h

/-- A turn that stores a byte of a frame with room for it (43 R161). -/
theorem putFrameTurn_room (e : Frame5) (i : Fin 5) (thenArm : Bool) (h : s.tx.Wf s.params.capacity)
    (hroom : s.tx.count < s.params.capacity) :
    ∃ r : Ring, r.Wf s.params.capacity ∧ r.count = s.tx.count + 1 ∧
      r.contents s.params.capacity = s.tx.contents s.params.capacity ++ [frameByte e i] ∧
      putFrameTurn e i thenArm s =
        if i = 4 then frameStored thenArm { s with tx := r } else goOn (.putFrame e (i + 1) thenArm) { s with tx := r } := by
  rcases putByte_cases (x := .tx) (frameByte e i) h with ⟨hfull, -⟩ | ⟨-, r, hp, hw, hr, hc⟩
  · exact absurd hfull (Nat.ne_of_lt hroom)
  · refine ⟨r, hw, by rw [hr]; rfl, hc, ?_⟩
    simp only [putFrameTurn, hp, if_true, setRing_tx_eq]

theorem armTurn_eq : armTurn s = .next { s.setTask s.serving none with
    armed := true
    outstanding := s.outstanding ++ (if s.armed then [] else [s.params.armDelay])
    trace := s.trace ++ (if s.armed then [.response s.serving { cond := .pacerBusy }]
      else [.sched s.params.armDelay, .response s.serving { ok := true, sched := true }]) } := by
  rcases tpArm_cases (s := s) with ⟨ha, hp⟩ | ⟨ha, hp⟩
  · simp [armTurn, hp, finish, State.respond, setTask_eq, ha]
  · simp [armTurn, hp, finish, State.respond, State.schedule, setTask_eq, ha]

/-- What a fire with a byte to send lets out (44 R176). -/
def fireOutputs (p : Params) (a : Agent) (b : Byte) : List Output :=
  [.tx b, .sched (bytePeriod p), .response a { ok := true, txb := true, sched := true, d0 := b }]

/-- One fire of a `DRAIN` (30 R110): the last, or one that sends the oldest byte of `tx`. -/
theorem drainTurn_cases (h : s.tx.Wf s.params.capacity) :
    (s.tx.contents s.params.capacity = [] ∧ drainTurn s = .next { s.setTask s.serving none with
      armed := false
      outstanding := s.outstanding.tail
      trace := s.trace ++ [.response s.serving { cond := .bufferEmpty }] }) ∨
    ∃ (b : Byte) (r : Ring), r.Wf s.params.capacity ∧
      s.tx.contents s.params.capacity = b :: r.contents s.params.capacity ∧
      drainTurn s = .next (State.setTask { s with
        tx := r
        armed := true
        outstanding := s.outstanding.tail ++ [bytePeriod s.params]
        trace := s.trace ++ fireOutputs s.params s.serving b } s.serving (some .drain)) := by
  rcases tpFire_cases (s := { s with outstanding := s.outstanding.tail }) h with ⟨h0, hp⟩ | ⟨-, b, r, hp, hw, -, hc⟩
  · refine .inl ⟨h.contents_eq_nil h0, ?_⟩
    simp [drainTurn, hp, finish, State.respond, setTask_eq]
  · refine .inr ⟨b, r, hw, hc, ?_⟩
    simp [drainTurn, hp, goOn, State.respond, fireOutputs]

end

/-! ### `SEND` (30 R109) -/

theorem wireBytes_drop (e : Frame5) (i : Fin 5) :
    (wireBytes e).drop i = frameByte e i :: (wireBytes e).drop (i + 1) := by
  match i with
  | 0 | 1 | 2 | 3 | 4 => rfl

/-- `POLL` stores byte `i` of a frame when there is room for it. -/
theorem step_putFrame {s : State} {e : Frame5} {i : Fin 5} {thenArm : Bool} (h : s.Alone .poll (.putFrame e i thenArm))
    (hroom : s.tx.count < s.params.capacity) :
    ∃ r : Ring, r.Wf s.params.capacity ∧ r.count = s.tx.count + 1 ∧
      r.contents s.params.capacity = s.tx.contents s.params.capacity ++ [frameByte e i] ∧
      step s = if i = 4 then frameStored thenArm { s with tx := r, serving := .poll }
        else goOn (.putFrame e (i + 1) thenArm) { s with tx := r, serving := .poll } := by
  obtain ⟨r, hw, hcount, hc, hturn⟩ :=
    putFrameTurn_room (s := { s with serving := .poll }) e i thenArm h.inv.tx hroom
  exact ⟨r, hw, hcount, hc, h.step_eq.trans hturn⟩

/-- `POLL` storing a frame from byte `i` on: one step a byte, the response after the last; a `SEND` still has to arm. -/
theorem run_putFrame {s : State} {e : Frame5} {thenArm : Bool} (n : Nat) {i : Fin 5} (hn : i.val + n = 4)
    (h : s.Alone .poll (.putFrame e i thenArm)) (hroom : s.tx.count + (n + 1) ≤ s.params.capacity) :
    ∃ r : Ring, r.Wf s.params.capacity ∧
      r.contents s.params.capacity = s.tx.contents s.params.capacity ++ (wireBytes e).drop i ∧
      Host.Core.run Sys2Proof.core (n + 1) s = .next { s with
        tx := r
        serving := .poll
        pollTask := if thenArm then some .arm else none
        trace := s.trace ++ [.response .poll { ok := true }] } := by
  induction n generalizing s i with
  | zero =>
    obtain rfl : i = 4 := Fin.ext hn
    obtain ⟨r, hw, -, hc, hstep⟩ := step_putFrame h hroom
    refine ⟨r, hw, hc, run_succ (hstep.trans ?_)⟩
    cases thenArm <;> rfl
  | succ n ih =>
    obtain ⟨r, hw, hcount, hc, hstep⟩ := step_putFrame h (by omega)
    have hi : i.val < 4 := by omega
    have hsucc : (i + 1).val = i.val + 1 := Fin.val_add_one_of_lt (n := 4) hi
    rw [if_neg (by rintro rfl; exact absurd hi (by decide))] at hstep
    have hinv : State.Inv { s with tx := r, serving := .poll } := ⟨h.inv.legal, h.inv.rx, hw⟩
    obtain ⟨r', hw', hc', hrun⟩ := ih (i := i + 1) (by omega)
      (hinv.alone_setTask h.inputs h.later h.others) (by simp [hcount]; omega)
    refine ⟨r', hw', ?_, (run_succ hstep).trans hrun⟩
    rw [wireBytes_drop, ← hsucc]
    exact hc'.trans (by simp [hc])

/-- Settles O30: the reservation, the five bytes, the arming; without room the reservation answers at once. -/
theorem sendStoresThenArms : Obligations.SendStoresThenArms := by
  intro s a b c d h hin hlater hp hr ht
  have hfirst : step s = reserveFrame a b c d true (s.taking .poll []) :=
    step_perform h.legal hin (by simp [waitsFor, Input.starter, hp])
  refine ⟨fun hroom => ?_, fun hfull => ?_⟩
  · have hothers : ∀ b, b ≠ .poll → s.task b = none := by rintro (_ | _ | _) <;> simp [hr, ht]
    have hinv : (s.taking .poll []).Inv := h.of_eq rfl rfl rfl
    obtain ⟨r, hw, hc, hput⟩ := run_putFrame 4 (i := 0) rfl (hinv.alone_setTask rfl hlater hothers) hroom
    have hstored : State.Inv { s.taking .poll [] with tx := r, trace := s.trace ++ [.response .poll { ok := true }] } :=
      ⟨h.legal, h.rx, hw⟩
    have harm := (hstored.alone_setTask (k := .arm) rfl hlater hothers).step_eq.trans armTurn_eq
    have hreserve := hfirst.trans (reserveFrame_room a b c d true hroom)
    refine ⟨_, (run_succ hreserve).trans ((run_add (m := 1) hput).trans (run_succ harm)), hc, ?_⟩
    simp [State.taking, setTask_eq, hp]
  · refine (run_succ (hfirst.trans (reserveFrame_full a b c d true hfull))).trans ?_
    simp [Host.Core.run, State.respond, State.taking, setTask_eq, hp]

/-! ### `DRAIN` (30 R110) -/

/-- The chain from the step that is a `DRAIN`'s next fire, no other agent being busy: a fire for every byte, and the one that ends it. -/
theorem run_drain {s : State} {bs : List Byte} (h : s.Inv) (hlater : s.later = .silent)
    (hothers : ∀ b, b ≠ .tmr → s.task b = none) (hbs : s.tx.contents s.params.capacity = bs) (hout : s.outstanding.tail = [])
    (hstep : step s = drainTurn (s.taking .tmr [])) :
    ∃ r : Ring, r.contents s.params.capacity = [] ∧
      Host.Core.run Sys2Proof.core (bs.length + 1) s = .next { s with
        tx := r
        armed := false
        outstanding := []
        tmrTask := none
        serving := .tmr
        inputs := []
        trace := s.trace ++ bs.flatMap (fireOutputs s.params .tmr) ++ [.response .tmr { cond := .bufferEmpty }] } := by
  induction bs generalizing s with
  | nil =>
    rcases drainTurn_cases (s := s.taking .tmr []) h.tx with ⟨-, hturn⟩ | ⟨b, r, -, hc, -⟩
    · refine ⟨s.tx, hbs, (run_succ (hstep.trans hturn)).trans ?_⟩
      simp [Host.Core.run, State.taking, hout, setTask_eq]
    · cases hbs.symm.trans hc
  | cons b bs ih =>
    rcases drainTurn_cases (s := s.taking .tmr []) h.tx with ⟨hc, -⟩ | ⟨b', r, hw, hc, hturn⟩
    · cases hbs.symm.trans hc
    · cases hbs.symm.trans hc
      have hfired : State.Inv { s.taking .tmr [] with
          tx := r
          armed := true
          outstanding := s.outstanding.tail ++ [bytePeriod s.params]
          trace := s.trace ++ fireOutputs s.params .tmr b } := ⟨h.legal, h.rx, hw⟩
      have hnext := hfired.alone_setTask (k := .drain) rfl hlater hothers
      obtain ⟨r', hr', hrun⟩ := ih hnext.inv hlater hnext.others rfl (by simp [hout]) hnext.step_eq
      refine ⟨r', hr', (run_succ (hstep.trans hturn)).trans (hrun.trans ?_)⟩
      simp [State.taking, setTask_eq]

/-- Settles O35: the chain, begun by the `DRAIN` itself. -/
theorem drainRunsTheChain : Obligations.DrainRunsTheChain := by
  intro s bs d h hp hr ht hbs hout hin hlater
  have hfirst : step s = drainTurn (s.taking .tmr []) :=
    step_perform h.legal hin (by simp [waitsFor, Input.starter, ht])
  obtain ⟨r, hc, hrun⟩ := run_drain h hlater (by rintro (_ | _ | _) <;> simp [hp, hr]) hbs (by simp [hout]) hfirst
  exact ⟨_, hrun, hc, by simp only [ht]; rfl⟩

end Sys2Proof.Machine
end

section
/-! PROOFS of 41_ringbuffer.md: what `INIT`, `PUT` and `GET` do to a buffer, its registers, its cells and its contents. -/

namespace Sys2Proof.Machine

/-! ### `INIT` (41 R120) -/

theorem Ring.isFull_clear {C : Nat} {r : Ring} (hC : 0 < C) : r.clear.isFull C = false :=
  Bool.eq_false_iff.mpr fun h => hC.ne (Ring.isFull_iff.mp h)

section
variable {s : State} {x : RingId}

/-- A buffer replaced and a response given: the state, with its new trace written out. -/
theorem respond_setRing (r : Ring) (q : Response) :
    (s.setRing x r).respond q = { s.setRing x r with trace := s.trace ++ [.response s.serving q] } := by
  cases x <;> rfl

theorem exec_initOf_clear : exec (initOf x) s = .next ((s.setRing x (s.ring x).clear).respond { ok := true }) :=
  exec_initOf x

end

/-- Settles O7: `INIT` puts the cleared buffer in place of the buffer. -/
theorem initEmptiesBuffer : Obligations.InitEmptiesBuffer := by
  refine ⟨by decide, by decide, fun x s hl => ⟨(s.ring x).clear, ?_, rfl, rfl, rfl, fun _ => rfl, rfl, ?_, rfl⟩⟩
  · rw [exec_initOf_clear, respond_setRing]
  · exact Ring.isFull_clear hl.1

/-! ### `PUT` and `GET` (41 R121, R122) -/

/-- Settles O8: a full buffer refuses; otherwise the one cell written is the one at `end`. -/
theorem putStoresAtEnd : Obligations.PutStoresAtEnd := by
  refine ⟨fun a => ⟨rfl, rfl⟩, fun x a s h => ⟨exec_putOf_full a, fun hroom => ?_⟩⟩
  rcases putByte_cases a h with ⟨hfull, -⟩ | ⟨-, r, hp, -, rfl, -⟩
  · exact absurd hfull hroom
  · have hexec := exec_putOf (s := s) x a
    rw [hp, complete_ok, respond_setRing] at hexec
    refine ⟨_, hexec, rfl, rfl, rfl, ?_, fun k hk => ?_, rfl, Ring.isFull_iff⟩
    · exact Memory.read_write_same _ _ _
    · exact Memory.read_write_other _ _ _ _ hk

/-- Settles O9: an empty buffer refuses; otherwise the oldest byte is read and its cell stays as it was. -/
theorem getReturnsOldestByte : Obligations.GetReturnsOldestByte := by
  refine ⟨by decide, by decide, fun x s h => ⟨exec_getOf_empty, fun hpos => ?_⟩⟩
  rcases getByte_cases h with ⟨h0, -⟩ | ⟨-, v, r, hg, -, rfl, hv, -⟩
  · exact absurd h0 hpos
  · have hexec := exec_getOf (s := s) x
    rw [hg, complete_ok, respond_setRing] at hexec
    have hle := h.count_le
    refine ⟨_, v, hexec, hv, rfl, rfl, rfl, fun _ => rfl, ?_, ?_⟩
    · rw [Bool.eq_false_iff, ne_eq, Ring.isFull_iff]
      show ¬ (s.ring x).count - 1 = s.params.capacity
      omega
    · rw [Ring.isEmpty_iff]
      show (s.ring x).count - 1 = 0 ↔ (s.ring x).count = 1
      omega

/-! ### The queue law (41 R125, R126, R128) -/

/-- Settles O10: as many bytes as `count` says are stored, so the contents decide what `PUT` and `GET` do. -/
theorem contentsFollowQueueLaw : Obligations.ContentsFollowQueueLaw := by
  intro x s h
  refine ⟨⟨_, exec_initOf_clear, by simp⟩, fun a => ?_, ?_⟩
  · rw [h.length_contents]
    by_cases hfull : (s.ring x).count = s.params.capacity
    · exact ⟨_, exec_putOf_full a hfull, by simp [hfull], by simp [hfull]⟩
    · have hroom : (s.ring x).count < s.params.capacity := h.count_le.lt_of_ne hfull
      obtain ⟨r, hp, -, hc⟩ := exec_putOf_room a h hfull
      exact ⟨_, hp, by simp [hc, hroom], by simp [hroom]⟩
  · by_cases h0 : (s.ring x).count = 0
    · have hnil := h.contents_eq_nil h0
      exact ⟨_, exec_getOf_empty h0, by simp [hnil], by simp [hnil]⟩
    · obtain ⟨v, r, hg, -, -, hc⟩ := exec_getOf_stored h h0
      exact ⟨_, hg, by simp [hc], by simp [hc]⟩

end Sys2Proof.Machine
end

section
/-! PROOFS of 42_frame_assembler.md: the automaton fed a list of bytes, and the operations that step it. -/

namespace Sys2Proof.Machine

/-! ### The automaton fed a list of bytes -/

/-- The frames a verdict stands for: one on a match, none otherwise (42 R141). -/
def Verdict.frames : Verdict → List Frame5
  | .stored => []
  | .frame f => [f]
  | .mismatch => []

/-- The event of a frame recognised (00 R17). -/
def Frame5.event (f : Frame5) : Output := .frame f.command f.param1 f.param2 f.param3

section
variable {fa : Assembler} {b : Byte} {f : Frame5} {fs : List Frame5} {v : Verdict}

theorem Verdict.frames_eq_nil_iff : v.frames = [] ↔ ∀ f, v ≠ .frame f := by
  cases v <;> simp [Verdict.frames]

theorem emitVerdict_frames (v : Verdict) (s : State) :
    emitVerdict v s = { s with trace := s.trace ++ v.frames.map Frame5.event } := by
  cases v with
  | stored => simp [emitVerdict, Verdict.frames]
  | frame f => rfl
  | mismatch => simp [emitVerdict, Verdict.frames]

@[simp] theorem stepResponse_consumed (v : Verdict) : (stepResponse v).consumed = true := by
  cases v <;> rfl

theorem stepResponse_valid_of_noFrame (h : v.frames = []) : (stepResponse v).valid = false := by
  cases v with
  | stored => rfl
  | frame f => cases h
  | mismatch => rfl

@[simp] theorem feed_nil (fa : Assembler) : feed fa [] = (fa, []) := rfl

theorem feed_cons (fa : Assembler) (b : Byte) (bs : List Byte) :
    feed fa (b :: bs) = ((feed (accept fa b).1 bs).1, (accept fa b).2.frames ++ (feed (accept fa b).1 bs).2) := by
  rw [feed]
  cases (accept fa b).2 <;> rfl

theorem feed_singleton (fa : Assembler) (b : Byte) : feed fa [b] = ((accept fa b).1, (accept fa b).2.frames) := by
  simp [feed_cons]

theorem feed_append (fa : Assembler) (bs cs : List Byte) :
    feed fa (bs ++ cs) = ((feed (feed fa bs).1 cs).1, (feed fa bs).2 ++ (feed (feed fa bs).1 cs).2) := by
  induction bs generalizing fa with
  | nil => simp
  | cons b bs ih => simp [feed_cons, ih]

/-! ### The window (42 R149) -/

/-- The storage number of a state is the number of window bytes that the automaton has still to read. -/
theorem length_liveWindow (fa : Assembler) : fa.liveWindow.length = (faStateCode fa.state).toNat := by
  obtain ⟨st, w⟩ := fa
  cases st <;> rfl

theorem state_eq_awaitChecksum_iff : fa.state = .awaitChecksum ↔ fa.liveWindow.length = 4 := by
  obtain ⟨st, w⟩ := fa
  cases st <;> simp [Assembler.liveWindow]

theorem liveWindow_of_awaitCommand (h : fa.state = .awaitCommand) : fa.liveWindow = [] := by
  simp [Assembler.liveWindow, h]

/-- The last four bytes, or all when there are fewer. -/
def lastFour (bs : List Byte) : List Byte := bs.drop (bs.length - 4)

theorem length_lastFour (bs : List Byte) : (lastFour bs).length = min bs.length 4 := by
  simp only [lastFour, List.length_drop]
  omega

theorem lastFour_of_length_le {bs : List Byte} (h : bs.length ≤ 4) : lastFour bs = bs := by
  simp [lastFour, Nat.sub_eq_zero_of_le h]

/-- Of the bytes that stood before four others none is left. -/
theorem lastFour_append {bs cs : List Byte} (h : cs.length = 4) : lastFour (bs ++ cs) = cs := by
  simp [lastFour, h]

/-- One byte more: after four or more bytes the oldest of the last four goes. -/
theorem lastFour_snoc_of_four_le {bs : List Byte} (b : Byte) (h : 4 ≤ bs.length) :
    lastFour (bs ++ [b]) = (lastFour bs).tail ++ [b] := by
  have hle : bs.length + 1 - 4 ≤ bs.length := by omega
  have hsucc : bs.length - 4 + 1 = bs.length + 1 - 4 := by omega
  simp only [lastFour, List.length_append, List.length_singleton, List.drop_append_of_le_length hle, List.tail_drop,
    hsucc]

/-- From `AwaitCommand`, while nothing matches, the window is the last four bytes. -/
theorem liveWindow_feed {bs : List Byte} (h : fa.state = .awaitCommand) (hquiet : (feed fa bs).2 = []) :
    (feed fa bs).1.liveWindow = lastFour bs := by
  induction bs using List.reverseRecOn with
  | nil => exact liveWindow_of_awaitCommand h
  | append_singleton bs b ih =>
    rw [feed_append, feed_singleton] at hquiet ⊢
    obtain ⟨hbs, hb⟩ := List.append_eq_nil_iff.mp hquiet
    have hwin := ih hbs
    have hlen := length_lastFour bs
    rw [← hwin] at hlen
    rcases accept_cases (feed fa bs).1 b with ⟨hst, -, hlive⟩ | ⟨-, -, hframe, -⟩ | ⟨hst, -, -, -, hlive⟩
    · rw [ne_eq, state_eq_awaitChecksum_iff] at hst
      have hlt : bs.length < 4 := by omega
      rw [hlive, hwin, lastFour_of_length_le hlt.le, lastFour_of_length_le (by simpa using hlt)]
    · simp [hframe, Verdict.frames] at hb
    · rw [state_eq_awaitChecksum_iff] at hst
      rw [hlive, hwin, lastFour_snoc_of_four_le b (by omega)]

theorem foldl_liveWindow (h : fa.state = .awaitChecksum) : fa.liveWindow.foldl (· ^^^ ·) 0 =
    cks fa.window.command fa.window.param1 fa.window.param2 fa.window.param3 := by
  simp [Assembler.liveWindow, h, cks]

/-- A byte gives a frame exactly when the window is full and the byte is the XOR of it (42 R142). -/
theorem accept_frame_iff : (∃ f, (accept fa b).2 = .frame f) ↔
    fa.liveWindow.length = 4 ∧ b = fa.liveWindow.foldl (· ^^^ ·) 0 := by
  rw [← state_eq_awaitChecksum_iff]
  rcases accept_cases fa b with ⟨hst, hv, -⟩ | ⟨hst, hb, hv, -⟩ | ⟨hst, hb, hv, -⟩
  · exact iff_of_false (by simp [hv]) fun h => hst h.1
  · exact iff_of_true ⟨_, hv⟩ ⟨hst, hb.trans (foldl_liveWindow hst).symm⟩
  · exact iff_of_false (by simp [hv]) fun h => hb (h.2.trans (foldl_liveWindow hst))

/-- Settles O19: the window is the last four bytes, and its length says which state the automaton is in. -/
theorem windowHoldsTheLastBytes : Obligations.WindowHoldsTheLastBytes := by
  intro fa bs h hquiet
  have hwin := liveWindow_feed h hquiet
  have hlen := length_lastFour bs
  refine ⟨fun hle => ⟨?_, ?_⟩, fun hge => ⟨?_, hwin⟩, fun b => ?_⟩
  · rw [← length_liveWindow, hwin]
    omega
  · rw [hwin, lastFour_of_length_le (by omega)]
  · rw [state_eq_awaitChecksum_iff, hwin]
    omega
  · have hfull : min bs.length 4 = 4 ↔ 4 ≤ bs.length := by omega
    rw [accept_frame_iff, hwin, hlen, hfull, lastFour]

/-! ### Valid frames (42 R147) -/

/-- With the first four bytes of a valid frame in the window, its fifth completes it. -/
theorem accept_checksum (hwin : fa.liveWindow = (wireBytes f).take 4) (hv : f.Valid) :
    accept fa f.checksum = ({ state := .awaitCommand, window := f }, .frame f) := by
  have hst : fa.state = .awaitChecksum := state_eq_awaitChecksum_iff.mpr (by rw [hwin]; rfl)
  obtain ⟨st, ⟨c, p1, p2, p3, k⟩⟩ := fa
  obtain rfl : st = .awaitChecksum := hst
  obtain ⟨rfl, rfl, rfl, rfl⟩ : c = f.command ∧ p1 = f.param1 ∧ p2 = f.param2 ∧ p3 = f.param3 := by
    simpa [Assembler.liveWindow, wireBytes] using hwin
  exact accept_match hv

/-- A valid frame behind bytes that give none, with no earlier window valid: recognised on its fifth byte (42 R151). -/
theorem accept_checksum_feed {bs : List Byte} (h : fa.state = .awaitCommand) (hv : f.Valid)
    (hquiet : (feed fa (bs ++ (wireBytes f).take 4)).2 = []) :
    accept (feed fa (bs ++ (wireBytes f).take 4)).1 f.checksum = ({ state := .awaitCommand, window := f }, .frame f) :=
  accept_checksum ((liveWindow_feed h hquiet).trans (lastFour_append rfl)) hv

theorem wireBytes_eq (f : Frame5) : wireBytes f = (wireBytes f).take 4 ++ [f.checksum] := rfl

theorem feed_take_four (f : Frame5) (h : fa.state = .awaitCommand) : (feed fa ((wireBytes f).take 4)).2 = [] := by
  obtain ⟨st, w⟩ := fa
  obtain rfl : st = .awaitCommand := h
  rfl

theorem feed_wireBytes (h : fa.state = .awaitCommand) (hv : f.Valid) :
    feed fa (wireBytes f) = ({ state := .awaitCommand, window := f }, [f]) := by
  have hquiet := feed_take_four f h
  have hlast := accept_checksum_feed (bs := []) h hv hquiet
  rw [List.nil_append] at hlast
  rw [wireBytes_eq, feed_append, hquiet, feed_singleton, hlast]
  rfl

/-- Valid frames one after another, from `AwaitCommand`. -/
theorem feed_frames (h : fa.state = .awaitCommand) (hv : ∀ f ∈ fs, f.Valid) :
    (feed fa (fs.flatMap wireBytes)).2 = fs ∧ (feed fa (fs.flatMap wireBytes)).1.state = .awaitCommand := by
  induction fs generalizing fa with
  | nil => exact ⟨rfl, h⟩
  | cons f fs ih =>
    obtain ⟨hf, hfs⟩ := List.forall_mem_cons.mp hv
    obtain ⟨hframes, hst⟩ := ih (fa := { state := .awaitCommand, window := f }) rfl hfs
    rw [List.flatMap_cons, feed_append, feed_wireBytes h hf]
    exact ⟨congrArg (f :: ·) hframes, hst⟩

/-- Settles O18: by induction on the frames, each from the `AwaitCommand` that the one before it leaves. -/
theorem alignedFramesAreRecognised : Obligations.AlignedFramesAreRecognised := by
  intro fa fs h hv
  obtain ⟨hframes, hst⟩ := feed_frames h hv
  exact ⟨hframes, hst, fun f => feed_take_four f h⟩

end

/-! ### `FA_INIT` (42 R140) -/

/-- Settles O16: the answer is the state with a free window. -/
theorem faInitRestartsAssembler : Obligations.FaInitRestartsAssembler :=
  ⟨by decide, fun s => ⟨freeWindow s.freeCount, rfl⟩⟩

/-! ### `FA_STEP` (42 R141, R144, R150) -/

/-- A buffer with its oldest byte handed out (41 R122). -/
def Ring.dropOldest (C : Nat) (r : Ring) : Ring := { r with start := (r.start + 1) % C, count := r.count - 1 }

section
variable {s : State} {b : Byte} {bs : List Byte}

theorem faStep_empty (h0 : s.rx.count = 0) : faStep s = .ok (s, { cond := .bufferEmpty }) := by
  simp [faStep, Ring.get, Ring.isEmpty, h0]

/-- With a byte in `rx` the automaton gets it, and what it makes of the byte decides the event and the response. -/
theorem faStep_oldest (h : s.rx.Wf s.params.capacity) (hc : s.rx.contents s.params.capacity = b :: bs) :
    (s.rx.dropOldest s.params.capacity).Wf s.params.capacity ∧
    (s.rx.dropOldest s.params.capacity).contents s.params.capacity = bs ∧
    faStep s = .ok ({ s with
        rx := s.rx.dropOldest s.params.capacity
        fa := (accept s.fa b).1
        trace := s.trace ++ (accept s.fa b).2.frames.map Frame5.event },
      stepResponse (accept s.fa b).2) := by
  rcases faStep_cases h with ⟨h0, -⟩ | ⟨-, b', r, hp, hw, hr, hc'⟩
  · cases (h.contents_eq_nil h0).symm.trans hc
  · obtain ⟨rfl, hbs⟩ := List.cons.inj (hc'.symm.trans hc)
    obtain rfl : r = s.rx.dropOldest s.params.capacity := hr
    exact ⟨hw, hbs, by rw [hp, emitVerdict_frames]⟩

theorem exec_faStep_empty (h0 : s.rx.count = 0) : exec .faStep s = .next (s.respond { cond := .bufferEmpty }) :=
  congrArg complete (faStep_empty h0)

/-- `FA_STEP` with a byte in `rx`, by what the automaton makes of the byte in the state `st` it is in. -/
theorem exec_faStep_oldest {st : FaState} {fa' : Assembler} {v : Verdict} (h : s.rx.Wf s.params.capacity)
    (hc : s.rx.contents s.params.capacity = b :: bs) (hst : s.fa.state = st)
    (hv : accept { state := st, window := s.fa.window } b = (fa', v)) :
    exec .faStep s = .next { s with
      rx := s.rx.dropOldest s.params.capacity
      fa := fa'
      trace := s.trace ++ (v.frames.map Frame5.event ++ [.response s.serving (stepResponse v)]) } := by
  subst hst
  have hacc : accept s.fa b = (fa', v) := hv
  obtain ⟨-, -, hp⟩ := faStep_oldest h hc
  rw [hacc] at hp
  rw [← List.append_assoc]
  exact congrArg complete hp

end

/-- Settles O17: each row is the automaton's own row, put through `FA_STEP`. -/
theorem assemblerTransitionTable : Obligations.AssemblerTransitionTable := by
  refine ⟨fun s _ h0 => exec_faStep_empty h0, fun s b bs h hc => ?_, fun s => ⟨⟨_, rfl, rfl⟩, _, rfl, rfl⟩⟩
  obtain ⟨-, hbs, -⟩ := faStep_oldest h hc
  exact ⟨s.rx.dropOldest s.params.capacity, hbs, rfl,
    fun hst => exec_faStep_oldest h hc hst (accept_awaitCommand _ b),
    fun hst => exec_faStep_oldest h hc hst (accept_awaitParam1 _ b),
    fun hst => exec_faStep_oldest h hc hst (accept_awaitParam2 _ b),
    fun hst => exec_faStep_oldest h hc hst (accept_awaitParam3 _ b),
    fun hst hb => exec_faStep_oldest h hc hst (accept_match hb),
    fun hst hb => exec_faStep_oldest h hc hst (accept_mismatch hb)⟩

/-! ### One turn of `TRY_GET_FRAME` (42 R146) -/

section
variable {s : State} {b : Byte} {bs : List Byte} {f : Frame5}

theorem tryGetFrameTurn_empty (h0 : s.rx.count = 0) :
    tryGetFrameTurn s = .next { s.setTask s.serving none with
      trace := s.trace ++ [.response s.serving { cond := .bufferEmpty }] } := by
  simp [tryGetFrameTurn, faStep_empty h0, finish, State.respond]

/-- The oldest byte of `rx` completes a frame: emitted, returned, and the operation over. -/
theorem tryGetFrameTurn_returns (h : s.rx.Wf s.params.capacity) (hc : s.rx.contents s.params.capacity = b :: bs)
    (hf : (accept s.fa b).2 = .frame f) :
    tryGetFrameTurn s = .next { s.setTask s.serving none with
      rx := s.rx.dropOldest s.params.capacity
      fa := (accept s.fa b).1
      trace := s.trace ++ [f.event, .response s.serving (stepResponse (.frame f))] } := by
  obtain ⟨-, -, hp⟩ := faStep_oldest h hc
  rw [hf] at hp
  simp [tryGetFrameTurn, hp, stepResponse, finish, State.respond, setTask_eq, Verdict.frames]

/-- It does not: the operation has another turn to take. -/
theorem tryGetFrameTurn_goesOn (h : s.rx.Wf s.params.capacity) (hc : s.rx.contents s.params.capacity = b :: bs)
    (hf : (accept s.fa b).2.frames = []) :
    tryGetFrameTurn s = .next { s.setTask s.serving (some .tryGetFrame) with
      rx := s.rx.dropOldest s.params.capacity
      fa := (accept s.fa b).1 } := by
  obtain ⟨-, -, hp⟩ := faStep_oldest h hc
  simp [tryGetFrameTurn, hp, hf, stepResponse_valid_of_noFrame hf, goOn, setTask_eq]

end

/-- Settles O20: the three outcomes of the turn. -/
theorem tryGetFrameTakesOneStep : Obligations.TryGetFrameTakesOneStep := by
  refine fun s h => ⟨tryGetFrameTurn_empty, fun b bs hc => ?_⟩
  obtain ⟨-, hbs, -⟩ := faStep_oldest h hc
  exact ⟨s.rx.dropOldest s.params.capacity, hbs, rfl, fun f hf => tryGetFrameTurn_returns h hc hf,
    fun hf => tryGetFrameTurn_goesOn h hc (Verdict.frames_eq_nil_iff.mpr hf)⟩

/-! ### `TRY_GET_FRAME`, undisturbed (42 R146, R151) -/

section
variable {s : State} {bs rest : List Byte}

theorem task_eq_none_of_ne_poll (hr : s.rxiTask = none) (ht : s.tmrTask = none) :
    ∀ a, a ≠ .poll → s.task a = none := by
  rintro (_ | _ | _) <;> simp [hr, ht]

/-- From the step that is a turn of `POLL`'s `TRY_GET_FRAME`, no other agent being busy: bytes that give no frame
take one step each, and the step after them is the turn that meets the rest. -/
theorem run_tryGetFrame (h : s.Inv) (hlater : s.later = .silent) (hothers : ∀ a, a ≠ .poll → s.task a = none)
    (hstep : step s = tryGetFrameTurn (s.taking .poll [])) (hbs : s.rx.contents s.params.capacity = bs ++ rest)
    (hquiet : (feed s.fa bs).2 = []) :
    ∃ (u : State) (r : Ring) (k : Option Task), Host.Core.run Sys2Proof.core bs.length s = .next u ∧
      r.Wf s.params.capacity ∧ r.contents s.params.capacity = rest ∧
      step u = tryGetFrameTurn { s with
        rx := r
        fa := (feed s.fa bs).1
        pollTask := k
        serving := .poll
        inputs := [] } := by
  induction bs generalizing s with
  | nil => exact ⟨s, s.rx, s.pollTask, rfl, h.rx, hbs, hstep⟩
  | cons b bs ih =>
    rw [feed_cons] at hquiet ⊢
    obtain ⟨hb, hquiet⟩ := List.append_eq_nil_iff.mp hquiet
    obtain ⟨hw, hc, -⟩ := faStep_oldest (s := s.taking .poll []) h.rx hbs
    have hturn := hstep.trans (tryGetFrameTurn_goesOn (s := s.taking .poll []) h.rx hbs hb)
    have hinv : State.Inv { s.taking .poll [] with
        rx := s.rx.dropOldest s.params.capacity
        fa := (accept s.fa b).1 } := ⟨h.legal, hw, h.tx⟩
    have hnext := hinv.alone_setTask (k := .tryGetFrame) rfl hlater hothers
    obtain ⟨u, r, k, hrun, hr⟩ := ih hnext.inv hlater hnext.others hnext.step_eq hc hquiet
    exact ⟨u, r, k, (run_succ hturn).trans hrun, hr⟩

end

/-- Settles O22: the turn after the last byte finds `rx` empty. -/
theorem tryGetFrameParksWithoutFrame : Obligations.TryGetFrameParksWithoutFrame := by
  intro s w h hin hlater hd hp hr ht hquiet
  obtain ⟨u, r, k, hrun, hw, hc, hstep⟩ :=
    run_tryGetFrame h hlater (task_eq_none_of_ne_poll hr ht) (step_request h.legal hin hp hd) (List.append_nil _).symm hquiet
  rw [h.rx.length_contents] at hrun
  have h0 : r.count = 0 := by rw [← hw.length_contents, hc]; rfl
  have hlast := hstep.trans (tryGetFrameTurn_empty h0)
  exact ⟨_, (run_add (m := 1) hrun).trans (run_succ hlast), hc, rfl, by simp [setTask_eq, hp]⟩

/-- Settles O21: the bytes before the checksum give no frame, and the turn that meets the checksum returns it. -/
theorem tryGetFrameResynchronises : Obligations.TryGetFrameResynchronises := by
  intro s w junk rest f h hin hlater hd hp hr ht hfa hv hbytes hquiet
  have hbs : s.rx.contents s.params.capacity = (junk ++ (wireBytes f).take 4) ++ f.checksum :: rest := by
    simp [hbytes, wireBytes]
  obtain ⟨u, r, k, hrun, hw, hc, hstep⟩ :=
    run_tryGetFrame h hlater (task_eq_none_of_ne_poll hr ht) (step_request h.legal hin hp hd) hbs hquiet
  have hacc := accept_checksum_feed hfa hv hquiet
  have hlast := hstep.trans (tryGetFrameTurn_returns hw hc (congrArg Prod.snd hacc))
  obtain ⟨-, hrest, -⟩ := faStep_oldest (s := { s with rx := r }) hw hc
  have hlen : (junk ++ (wireBytes f).take 4).length + 1 = junk.length + 5 := by simp [wireBytes]
  rw [← hlen]
  refine ⟨_, (run_add (m := 1) hrun).trans (run_succ hlast), hrest, congrArg (·.1.state) hacc, ?_⟩
  simp [setTask_eq, hp, Frame5.event, stepResponse]

end Sys2Proof.Machine
end

section
/-! PROOFS of 43_frame_encoder.md: what the encoder's operations answer, and the bytes on the wire of a core in service. -/

namespace Sys2Proof.Machine

/-! ### A step in service (60 R218, 70 R255 to R261) -/

/-- The operations `POLL` may ask for in service. -/
inductive PollOp : Instr → Prop where
  | faStep : PollOp .faStep
  | tryGetFrame : PollOp .tryGetFrame
  | feEncode (a b c d : Byte) : PollOp (.feEncode a b c d)
  | fePutFrame (a b c d : Byte) : PollOp (.fePutFrame a b c d)
  | tpArm : PollOp .tpArm

/-- The state with `is` as the inputs ahead and `n` free values drawn. -/
def State.ahead (s : State) (is : List Input) (n : Nat) : State := { s with inputs := is, freeCount := n }

/-- What a step in service can be, from the state with its input already taken. -/
inductive State.ServiceStep (s : State) : Host.Outcome State Fault Refusal → Prop where
  /-- Nothing is asked, or nothing comes of it. -/
  | idle : s.ServiceStep (.next s)
  /-- `POLL` goes on with its operation under way. -/
  | turn {k : Task} (hk : s.pollTask = some k) (hd : k ≠ .drain) : s.ServiceStep (taskTurn k { s with serving := .poll })
  /-- `POLL`, free, begins an operation. -/
  | ask {i : Instr} (hfree : s.pollTask = none) (hi : PollOp i) : s.ServiceStep (exec i { s with serving := .poll })
  /-- `POLL`, free, begins a `SEND`. -/
  | send (hfree : s.pollTask = none) (c p1 p2 p3 : Byte) :
      s.ServiceStep (reserveFrame c p1 p2 p3 true { s with serving := .poll })
  /-- `RXI` stores a byte received. -/
  | receive (b : Byte) : s.ServiceStep (exec (.rxbPut b) { s with serving := .rxi })
  /-- `TMR` fires on an outstanding event. -/
  | fire {k : Nat} (hk : k < s.outstanding.length) :
      s.ServiceStep (exec .tpFire { s with outstanding := s.outstanding.eraseIdx k, serving := .tmr })
  /-- A reserved code is answered with `ILLEGAL_OP` (30 R104). -/
  | reserved (a : Agent) : s.ServiceStep (.next (State.respond { s with serving := a } { cond := .illegalOp }))

section
variable {s : State} {w : CommandWord} {i : Instr} {is : List Input}

theorem pollOp_of_pollMayAsk (hd : decode w = .ok i) (hw : pollMayAsk w = true) : PollOp i := by
  cases i with
  | faStep => exact .faStep
  | tryGetFrame => exact .tryGetFrame
  | feEncode a b c d => exact .feEncode a b c d
  | fePutFrame a b c d => exact .fePutFrame a b c d
  | tpArm => exact .tpArm
  | rxbInit | rxbPut | rxbGet | txbInit | txbPut | txbGet | faInit | tpInit | tpFire | reset =>
    simp [pollMayAsk, hd] at hw

theorem eq_rxbPut_of_rxiMayAsk (hd : decode w = .ok i) (hw : rxiMayAsk w = true) : ∃ b, i = .rxbPut b := by
  cases i with
  | rxbPut b => exact ⟨b, rfl⟩
  | rxbInit | rxbGet | txbInit | txbPut | txbGet | faInit | faStep | tryGetFrame | feEncode | fePutFrame | tpInit | tpFire
  | tpArm | reset => simp [rxiMayAsk, hd] at hw

theorem task_eq_none_of_waitsFor {i : Input} {a : Agent} (hs : i.starter = some a) (hw : waitsFor i s = none) :
    s.task a = none := by
  cases hk : s.task a with
  | none => rfl
  | some k => simp [waitsFor, hs, hk] at hw

theorem rxbPut_service (b : Byte) : s.ServiceStep (serve .rxi (encode (.rxbPut b)) s) := by
  rw [serve_ok (decode_encode _)]
  exact .receive b

/-- A command word that keeps the conventions, of an agent that is free. -/
theorem serve_service {a : Agent} (hi : (Input.request a w).disciplined = true) (hfree : s.task a = none) :
    s.ServiceStep (serve a w s) := by
  cases hd : decode w with
  | error e =>
    rw [serve_error hd]
    exact .reserved a
  | ok i =>
    rw [serve_ok hd]
    cases a with
    | poll => exact .ask hfree (pollOp_of_pollMayAsk hd hi)
    | rxi =>
      obtain ⟨b, rfl⟩ := eq_rxbPut_of_rxiMayAsk hd hi
      exact .receive b
    | tmr => cases hi

/-- An input that keeps the conventions, of an agent that is free. -/
theorem perform_service {i : Input} (hi : i.disciplined = true) (hw : waitsFor i s = none)
    (hr : ∀ a, i = .resume a → s.task a = none) : s.ServiceStep (perform i s) := by
  cases i with
  | request a w => exact serve_service hi (task_eq_none_of_waitsFor rfl hw)
  | rxEvent b =>
    cases b with
    | none => exact .idle
    | some b => exact rxbPut_service b
  | timerEvent k =>
    by_cases hk : k < s.outstanding.length
    · simp only [perform, hk, if_true, serve_ok (decode_encode .tpFire)]
      exact .fire hk
    · simp only [perform, hk, if_false]
      exact .idle
  | resume a =>
    simp only [perform, resume, hr a rfl]
    exact .idle
  | send a c p1 p2 p3 =>
    cases a with
    | poll => exact .send (task_eq_none_of_waitsFor rfl hw) c p1 p2 p3
    | rxi | tmr => cases hi
  | resetLine | drain => cases hi

theorem State.Service.supply_disciplined (h : s.Service) {i : Input} (hi : i ∈ s.supply.inputs) : i.disciplined = true := by
  have hlater := h.later
  rcases mem_supply hi with hi | ⟨is, hl, hi⟩ | ⟨hl, n, hn⟩
  · exact h.inputs i hi
  · rw [hl] at hlater
    exact hlater i hi
  · rw [hl] at hlater
    exact hlater n i hn

/-- Taking an input, or drawing those ahead, keeps the service. -/
theorem State.Service.ahead (h : s.Service) (his : is ⊆ s.supply.inputs) (n : Nat) : (s.ahead is n).Service where
  inv := h.inv.of_eq rfl rfl rfl
  inputs _ hi := h.supply_disciplined (his hi)
  later := h.later
  rxiFree := h.rxiFree
  tmrFree := h.tmrFree
  noDrain := h.noDrain
  timer := h.timer
  room := h.room

theorem State.Service.serve (h : s.Service) (a : Agent) : State.Service { s with serving := a } :=
  { h with inv := h.inv.of_eq rfl rfl rfl }

/-- Only `POLL` has a task in service. -/
theorem State.Service.eq_poll (h : s.Service) {a : Agent} {k : Task} (hk : s.task a = some k) : a = .poll := by
  cases a with
  | poll => rfl
  | rxi => cases h.rxiFree.symm.trans hk
  | tmr => cases h.tmrFree.symm.trans hk

/-- Everything a step can do in service. -/
theorem State.Service.step_cases (h : s.Service) :
    ∃ is n, (s.ahead is n).Service ∧ (s.ahead is n).ServiceStep (step s) := by
  rcases Machine.step_cases h.inv.legal with ⟨-, -, hs⟩ | ⟨a, k, rest, n, hk, hrest, hs⟩ | ⟨i, rest, hi, hw, hr, hs⟩ <;>
    rw [hs]
  · refine ⟨s.supply.inputs, s.supply.freeCount, h.ahead (List.Subset.refl _) _, ?_⟩
    have hidle : s.supply = s.ahead s.supply.inputs s.supply.freeCount := supply_eq s
    exact congrArg Host.Outcome.next hidle ▸ .idle
  · obtain rfl := h.eq_poll hk
    exact ⟨rest, n, h.ahead hrest.subset n, .turn hk fun hd => h.noDrain (hd ▸ hk)⟩
  · refine ⟨rest, s.supply.freeCount, h.ahead (hi ▸ List.subset_cons_self i rest) _, ?_⟩
    exact perform_service (h.supply_disciplined (hi ▸ List.mem_cons_self)) hw hr

end

/-! ### The bytes on the wire (43 R162) -/

/-- What has been sent, what waits in `tx` and what `POLL` is about to store, in that order. -/
def State.wire (s : State) : List Byte :=
  txBytes s.trace ++ s.tx.contents s.params.capacity ++ pendingBytes s.pollTask

/-- Between `s` and `t` whole valid frames, if any, come behind the bytes on the wire. -/
def State.WireGrows (s t : State) : Prop :=
  ∃ fs : List Frame5, (∀ f ∈ fs, f.Valid) ∧ t.wire = s.wire ++ fs.flatMap wireBytes

theorem txBytes_append (os os' : List Output) : txBytes (os ++ os') = txBytes os ++ txBytes os' := by
  induction os with
  | nil => rfl
  | cons o os ih => cases o <;> simp [txBytes, ih]

section
variable {s t u : State}

theorem State.WholeFrames.grow (h : s.WholeFrames) (hg : s.WireGrows t) : t.WholeFrames := by
  obtain ⟨fs, hv, hw⟩ := h
  obtain ⟨gs, hv', hw'⟩ := hg
  refine ⟨fs ++ gs, fun f hf => (List.mem_append.mp hf).elim (hv f) (hv' f), ?_⟩
  rw [List.flatMap_append, ← hw]
  exact hw'

theorem State.WireGrows.of_eq (h : t.wire = s.wire) : s.WireGrows t := ⟨[], by simp, by simp [h]⟩

/-- Who is served and the events outstanding are set before a primitive; the bytes on the wire do not depend on them. -/
theorem State.WireGrows.of_with {ds : List Nat} {a : Agent} (h : State.WireGrows { s with outstanding := ds, serving := a } t) :
    s.WireGrows t := h

@[simp] theorem wire_respond (q : Response) : (s.respond q).wire = s.wire := by
  simp [State.wire, txBytes_append, txBytes]

@[simp] theorem wire_emitVerdict (v : Verdict) : (emitVerdict v s).wire = s.wire := by
  cases v <;> simp [emitVerdict, State.wire, txBytes_append, txBytes]

theorem wire_setTask (a : Agent) {k : Option Task} (hs : pendingBytes s.pollTask = []) (hk : pendingBytes k = []) :
    (s.setTask a k).wire = s.wire := by
  cases a <;> simp [State.wire, hs, hk]

/-- The end of an operation that stores no frame. -/
theorem finish_wire {q : Response} (hs : pendingBytes u.pollTask = []) (h : finish q u = .next t) : t.wire = u.wire := by
  cases h
  rw [wire_respond, wire_setTask _ hs rfl]

theorem goOn_wire {k : Task} (hs : pendingBytes u.pollTask = []) (hk : pendingBytes (some k) = []) (h : goOn k u = .next t) :
    t.wire = u.wire := by
  cases h
  exact wire_setTask _ hs hk

theorem complete_wire {p : Result} (hp : ∀ {u q}, p = .ok (u, q) → u.wire = s.wire) (h : complete p = .next t) :
    t.wire = s.wire := by
  obtain ⟨u, q, hu, rfl⟩ := complete_eq_next.mp h
  rw [wire_respond, hp hu]

/-! The primitives -/

theorem emitVerdict_pollTask (v : Verdict) : (emitVerdict v s).pollTask = s.pollTask := by
  cases v <;> rfl

theorem faStep_wire {q : Response} (h : s.Inv) (hp : faStep s = .ok (u, q)) : u.wire = s.wire ∧ u.pollTask = s.pollTask := by
  rcases faStep_cases h.rx with ⟨-, hs⟩ | ⟨-, b, r, hs, -⟩ <;> rw [hs] at hp <;> cases hp
  · exact ⟨rfl, rfl⟩
  · exact ⟨wire_emitVerdict _, emitVerdict_pollTask _⟩

theorem tpArm_wire {q : Response} (hp : tpArm s = .ok (u, q)) : u.wire = s.wire ∧ u.pollTask = s.pollTask := by
  rcases tpArm_eq_ok hp with rfl | rfl
  · exact ⟨rfl, rfl⟩
  · exact ⟨by simp [State.wire, txBytes_append, txBytes], rfl⟩

/-- The byte sent leaves the head of `tx` and follows the bytes sent before it. -/
theorem tpFire_wire {q : Response} (h : s.Inv) (hp : tpFire s = .ok (u, q)) : u.wire = s.wire := by
  rcases tpFire_cases h.tx with ⟨-, hs⟩ | ⟨-, b, r, hs, -, -, hc⟩ <;> rw [hs] at hp <;> cases hp
  · rfl
  · simp [State.wire, txBytes_append, txBytes, hc]

theorem rxPut_wire {a : Byte} {q : Response} (hp : putByte .rx a s = .ok (u, q)) : u.wire = s.wire := by
  rcases putByte_eq_ok hp with rfl | ⟨r, -, rfl⟩ <;> rfl

/-! Turns and operations -/

theorem tryGetFrameTurn_wire (h : s.Inv) (hs : pendingBytes s.pollTask = []) (ht : tryGetFrameTurn s = .next t) :
    t.wire = s.wire := by
  unfold tryGetFrameTurn at ht
  split at ht
  · cases ht
  · rename_i u q hp
    obtain ⟨hu, hk⟩ := faStep_wire h hp
    have hs' : pendingBytes u.pollTask = [] := hk ▸ hs
    rw [← hu]
    split at ht
    · exact finish_wire hs' ht
    · split at ht
      · exact goOn_wire hs' rfl ht
      · exact finish_wire hs' ht

theorem armTurn_wire (hs : pendingBytes s.pollTask = []) (ht : armTurn s = .next t) : t.wire = s.wire := by
  unfold armTurn at ht
  split at ht
  · cases ht
  · rename_i u q hp
    obtain ⟨hu, hk⟩ := tpArm_wire hp
    exact (finish_wire (hk ▸ hs) ht).trans hu

/-- The frame whose reservation succeeds comes whole, as bytes still to store. -/
theorem reserveFrame_wireGrows {c p1 p2 p3 : Byte} {thenArm : Bool} (ha : s.serving = .poll) (hs : s.pollTask = none)
    (ht : reserveFrame c p1 p2 p3 thenArm s = .next t) : s.WireGrows t := by
  unfold reserveFrame at ht
  split at ht
  · exact .of_eq (finish_wire (by rw [hs]; rfl) ht)
  · cases ht
    refine ⟨[encodeFrame c p1 p2 p3], by simp [Frame5.Valid, encodeFrame], ?_⟩
    simp [State.wire, ha, hs, pendingBytes]

theorem frameStored_eq (thenArm : Bool) : frameStored thenArm s =
    .next ((s.setTask s.serving (if thenArm then some .arm else none)).respond { ok := true }) := by
  cases thenArm with
  | true => simp [frameStored, goOn, State.respond, setTask_eq]
  | false => rfl

/-- A byte stored leaves the head of those still to store and follows those in `tx`. -/
theorem putFrameTurn_wire {e : Frame5} {i : Fin 5} {thenArm : Bool} (h : s.Inv) (ha : s.serving = .poll)
    (hk : s.pollTask = some (.putFrame e i thenArm)) (hroom : s.tx.count < s.params.capacity)
    (ht : putFrameTurn e i thenArm s = .next t) : t.wire = s.wire := by
  obtain ⟨r, -, -, hc, hturn⟩ := putFrameTurn_room e i thenArm h.tx hroom
  have hs : s.wire = txBytes s.trace ++ r.contents s.params.capacity ++ (wireBytes e).drop (i.val + 1) := by
    simp [State.wire, hk, pendingBytes, wireBytes_drop e i, hc]
  rw [hs]
  rw [hturn] at ht
  split at ht
  · rename_i hi
    rw [frameStored_eq] at ht
    cases ht
    rw [wire_respond]
    cases thenArm <;> simp [State.wire, ha, hi, pendingBytes, wireBytes]
  · rename_i hi
    cases ht
    have hsucc : (i + 1).val = i.val + 1 := Fin.val_add_one_of_lt (n := 4) (Fin.lt_last_iff_ne_last.mpr hi)
    simp [State.wire, ha, pendingBytes, hsucc]

theorem pollOp_wireGrows {i : Instr} (h : s.Inv) (ha : s.serving = .poll) (hs : s.pollTask = none) (hi : PollOp i)
    (ht : exec i s = .next t) : s.WireGrows t := by
  have hnone : pendingBytes s.pollTask = [] := by rw [hs]; rfl
  cases hi with
  | faStep => exact .of_eq (complete_wire (fun hp => (faStep_wire h hp).1) ht)
  | tryGetFrame => exact .of_eq (tryGetFrameTurn_wire h hnone ht)
  | feEncode a b c d =>
    cases ht
    exact .of_eq (wire_respond _)
  | fePutFrame a b c d => exact reserveFrame_wireGrows ha hs ht
  | tpArm => exact .of_eq (complete_wire (fun hp => (tpArm_wire hp).1) ht)

theorem taskTurn_wire {k : Task} (h : s.Service) (ha : s.serving = .poll) (hk : s.pollTask = some k) (hd : k ≠ .drain)
    (ht : taskTurn k s = .next t) : t.wire = s.wire := by
  cases k with
  | tryGetFrame => exact tryGetFrameTurn_wire h.inv (by rw [hk]; rfl) ht
  | putFrame e i thenArm =>
    have hroom := h.room e i thenArm hk
    exact putFrameTurn_wire h.inv ha hk (by omega) ht
  | arm => exact armTurn_wire (by rw [hk]; rfl) ht
  | drain => exact absurd rfl hd

theorem State.ServiceStep.wireGrows {o : Host.Outcome State Fault Refusal} (h : s.Service) (hs : s.ServiceStep o)
    (ho : o = .next t) : s.WireGrows t := by
  cases hs with
  | idle => cases ho; exact .of_eq rfl
  | turn hk hd => exact .of_with (.of_eq (taskTurn_wire (h.serve .poll) rfl hk hd ho))
  | ask hfree hi => exact .of_with (pollOp_wireGrows (h.serve .poll).inv rfl hfree hi ho)
  | send hfree c p1 p2 p3 => exact .of_with (reserveFrame_wireGrows rfl hfree ho)
  | receive b => exact .of_with (.of_eq (complete_wire rxPut_wire ho))
  | fire hk =>
    have hinv (ds : List Nat) : State.Inv { s with outstanding := ds, serving := .tmr } := h.inv.of_eq rfl rfl rfl
    exact .of_with (.of_eq (complete_wire (tpFire_wire (hinv _)) ho))
  | reserved a => cases ho; exact .of_eq (wire_respond _)

end

/-- Settles O41: a step in service keeps the bytes on the wire, but for one whole frame when its reservation succeeds. -/
theorem wholeFramesOnTheWire : Obligations.WholeFramesOnTheWire := by
  intro s t h hw ht
  obtain ⟨is, n, hservice, hstep⟩ := h.step_cases
  exact State.WholeFrames.grow (s := s.ahead is n) hw (hstep.wireGrows hservice ht)

/-! ### `FE_ENCODE` (43 R160) -/

/-- Settles O25: one primitive, completed, on the state as it was. -/
theorem feEncodeAnswersWireBytes : Obligations.FeEncodeAnswersWireBytes :=
  ⟨fun _ _ _ _ => rfl, fun _ _ _ _ _ => rfl⟩

/-! ### `FE_PUT_FRAME` (43 R161 to R165) -/

section
variable {s : State}

theorem exec_fePutFrame_room (a b c d : Byte) (h : s.tx.count + 5 ≤ s.params.capacity) : exec (.fePutFrame a b c d) s =
    .next (s.setTask s.serving (some (.putFrame (encodeFrame a b c d) 0 false))) :=
  reserveFrame_room a b c d false h

theorem exec_fePutFrame_full (a b c d : Byte) (h : s.params.capacity < s.tx.count + 5) : exec (.fePutFrame a b c d) s =
    .next { s.setTask s.serving none with trace := s.trace ++ [.response s.serving { cond := .bufferFull }] } :=
  (reserveFrame_full a b c d false h).trans (by simp [State.respond])

theorem putFrameTurn_full (e : Frame5) (i : Fin 5) (thenArm : Bool) (h : s.tx.count = s.params.capacity) :
    putFrameTurn e i thenArm s =
      .next ((s.setTask s.serving none).respond { cond := .bufferFull, d0 := BitVec.ofNat 8 i.val }) := by
  simp [putFrameTurn, putByte, Ring.put, Ring.isFull, h, finish]

theorem wireBytes_getElem? (e : Frame5) (i : Fin 5) : (wireBytes e)[i.val]? = some (frameByte e i) := by
  rw [← List.head?_drop, wireBytes_drop]
  rfl

end

/-- Settles O27: below five cells no `tx` leaves room, and at five only an empty one does. -/
theorem fePutFrameReservesFirst : Obligations.FePutFrameReservesFirst :=
  fun a b c d _ => ⟨exec_fePutFrame_room a b c d, exec_fePutFrame_full a b c d,
    fun h => exec_fePutFrame_full a b c d (by omega), fun h h0 => exec_fePutFrame_full a b c d (by omega)⟩

/-- Settles O28: a full buffer refuses the byte; otherwise what comes after it depends on whether it is the fifth. -/
theorem putFrameTurnStoresOneByte : Obligations.PutFrameTurnStoresOneByte := by
  refine fun e i thenArm s h => ⟨fun hfull => ?_, fun hroom => ?_⟩
  · rw [putFrameTurn_full e i thenArm hfull]
    simp [State.respond]
  · obtain ⟨r, -, -, hc, hturn⟩ := putFrameTurn_room e i thenArm h (lt_of_le_of_ne h.count_le hroom)
    refine ⟨r, by rw [hc, wireBytes_getElem?]; rfl, fun hi => ⟨i + 1, Fin.val_add_one_of_lt (n := 4) hi, ?_⟩, fun hi => ?_⟩
    · rw [hturn, if_neg (by rintro rfl; exact absurd hi (by decide))]
      simp [goOn, setTask_eq]
    · rw [hturn, if_pos (Fin.ext hi), frameStored_eq]
      simp [State.respond, setTask_eq]

/-- Settles O29: the reservation, then the five bytes; without room the reservation answers at once. -/
theorem fePutFrameIsAllOrNothing : Obligations.FePutFrameIsAllOrNothing := by
  intro s w a b c d h hin hlater hd hp hr ht
  have hfirst := step_request h.legal hin hp hd
  refine ⟨fun hroom => ?_, fun hfull => ?_⟩
  · have hinv : (s.taking .poll []).Inv := h.of_eq rfl rfl rfl
    have hnext := hinv.alone_setTask (k := .putFrame (encodeFrame a b c d) 0 false) rfl hlater (task_eq_none_of_ne_poll hr ht)
    obtain ⟨r, -, hc, hput⟩ := run_putFrame 4 (i := 0) rfl hnext hroom
    refine ⟨_, (run_succ (hfirst.trans (exec_fePutFrame_room a b c d hroom))).trans hput, hc, ?_⟩
    simp [State.taking, setTask_eq, hp]
  · refine (run_succ (hfirst.trans (exec_fePutFrame_full a b c d hfull))).trans ?_
    simp [Host.Core.run, setTask_eq, hp]

end Sys2Proof.Machine
end

section
/-! PROOFS of 44_transmit_pacer.md: what the pacer's operations answer, the chain of its timer events, and what a step keeps of a
core in service. -/

namespace Sys2Proof.Machine

/-! ### `TP_INIT`, `TP_FIRE`, `TP_ARM` (44 R175 to R179) -/

section
variable {s : State} {b : Byte} {bs : List Byte}

theorem exec_tpFire_empty (h0 : s.tx.count = 0) : exec .tpFire s = .next { s with
    armed := false, trace := s.trace ++ [.response s.serving { cond := .bufferEmpty }] } := by
  simp [exec, execTpFire, tpFire, Ring.get, Ring.isEmpty, h0, State.respond]

/-- With a byte in `tx` the oldest is sent, the next event asked for, and the chain goes on. -/
theorem exec_tpFire_oldest (h : s.tx.Wf s.params.capacity) (hc : s.tx.contents s.params.capacity = b :: bs) :
    (s.tx.dropOldest s.params.capacity).Wf s.params.capacity ∧
    (s.tx.dropOldest s.params.capacity).contents s.params.capacity = bs ∧
    exec .tpFire s = .next { s with
      tx := s.tx.dropOldest s.params.capacity
      armed := true
      outstanding := s.outstanding ++ [bytePeriod s.params]
      trace := s.trace ++ fireOutputs s.params s.serving b } := by
  rcases tpFire_cases h with ⟨h0, -⟩ | ⟨-, b', r, hp, hw, hr, hc'⟩
  · cases (h.contents_eq_nil h0).symm.trans hc
  · obtain ⟨rfl, hbs⟩ := List.cons.inj (hc'.symm.trans hc)
    obtain rfl : r = s.tx.dropOldest s.params.capacity := hr
    refine ⟨hw, hbs, ?_⟩
    simp [exec, execTpFire, hp, State.respond, fireOutputs]

end

/-- Settles O31: one primitive, completed, that writes `tp.armed` only. -/
theorem tpInitIdlesPacer : Obligations.TpInitIdlesPacer := ⟨by decide, fun _ => rfl⟩

/-- Settles O32: the end of the chain on an empty `tx`; otherwise `tx` goes on without its oldest byte. -/
theorem tpFireSendsOldestByte : Obligations.TpFireSendsOldestByte := by
  refine ⟨by decide, fun s h => ⟨exec_tpFire_empty, fun b bs hc => ?_⟩⟩
  obtain ⟨-, hbs, hexec⟩ := exec_tpFire_oldest h hc
  exact ⟨_, hbs, rfl, hexec⟩

/-- Settles O33: the test of `tp.armed` decides. -/
theorem tpArmIsTestAndSet : Obligations.TpArmIsTestAndSet := by
  refine ⟨by decide, fun s => ?_⟩
  rcases tpArm_cases (s := s) with ⟨ha, hp⟩ | ⟨ha, hp⟩ <;>
    simp [exec, execTpArm, hp, ha, State.respond, State.schedule]

/-! ### The chain (44 R180, R181) -/

/-- The only outstanding event delivered to a `TMR` that is free is one `TP_FIRE`. -/
theorem step_timerEvent {s : State} {d : Nat} {rest : List Input} (hl : s.params.Legal)
    (hi : s.inputs = .timerEvent 0 :: rest) (ht : s.tmrTask = none) (hout : s.outstanding = [d]) :
    step s = exec .tpFire { s.taking .tmr rest with outstanding := [] } := by
  rw [step_perform hl hi (by simp [waitsFor, Input.starter, ht])]
  simp [perform, hout, serve_ok (decode_encode .tpFire), State.taking]

/-- The chain from one outstanding event on: a fire for every byte, and the one that ends it. -/
theorem run_pacerChain {s : State} {bs : List Byte} {d : Nat} {rest : List Input} (h : s.Inv) (ht : s.tmrTask = none)
    (hbs : s.tx.contents s.params.capacity = bs) (hout : s.outstanding = [d])
    (hin : s.inputs = List.replicate (bs.length + 1) (.timerEvent 0) ++ rest) :
    ∃ r : Ring, r.contents s.params.capacity = [] ∧
      Host.Core.run Sys2Proof.core (bs.length + 1) s = .next { s with
        tx := r
        armed := false
        outstanding := []
        serving := .tmr
        inputs := rest
        trace := s.trace ++ bs.flatMap (fireOutputs s.params .tmr) ++ [.response .tmr { cond := .bufferEmpty }] } := by
  induction bs generalizing s d with
  | nil =>
    have h0 : s.tx.count = 0 := by rw [← h.tx.length_contents, hbs]; rfl
    refine ⟨s.tx, hbs, (run_succ ((step_timerEvent h.legal hin ht hout).trans (exec_tpFire_empty h0))).trans ?_⟩
    simp [Host.Core.run, State.taking]
  | cons b bs ih =>
    have hstep := step_timerEvent h.legal hin ht hout
    obtain ⟨hw, hc, hexec⟩ := exec_tpFire_oldest (s := { s.taking .tmr _ with outstanding := [] }) h.tx hbs
    obtain ⟨r, hr, hrun⟩ := ih (s := { s.taking .tmr (List.replicate (bs.length + 1) (.timerEvent 0) ++ rest) with
        tx := s.tx.dropOldest s.params.capacity
        armed := true
        outstanding := [bytePeriod s.params]
        trace := s.trace ++ fireOutputs s.params .tmr b }) ⟨h.legal, h.rx, hw⟩ ht hc rfl rfl
    refine ⟨r, hr, (run_succ (hstep.trans hexec)).trans (hrun.trans ?_)⟩
    simp [State.taking]

/-- Settles O34: by induction on the bytes in `tx`. -/
theorem pacerChainDrainsTx : Obligations.PacerChainDrainsTx := by
  intro s bs d rest h ht hbs hout hin
  obtain ⟨r, hc, hrun⟩ := run_pacerChain h ht hbs hout hin
  exact ⟨_, hrun, hc, rfl⟩

/-! ### What a step keeps of a core in service (44 R181, 20 R80, 70 R255 to R261) -/

section
variable {s t u : State} {q : Response}

theorem State.Service.respond (h : s.Service) (q : Response) : (s.respond q).Service :=
  { h with inv := h.inv.move (respond_quiet s q).move }

/-- With nothing under way at `POLL` no room is kept for a frame. -/
theorem State.Service.freePoll (h : s.Service) : (s.setTask .poll none).Service :=
  { h with inv := h.inv.of_eq rfl rfl rfl, noDrain := nofun, room := nofun }

/-! How an operation ends or goes on -/

theorem complete_service {p : Result} (hp : ∀ {u q}, p = .ok (u, q) → u.Service) (h : complete p = .next t) : t.Service := by
  obtain ⟨u, q, hu, rfl⟩ := complete_eq_next.mp h
  exact (hp hu).respond q

theorem finish_service (hu : (u.setTask .poll none).Service) (ha : u.serving = .poll) (h : finish q u = .next t) :
    t.Service := by
  cases h
  rw [ha]
  exact hu.respond q

/-- `POLL` may go on with anything but a `DRAIN`, and with a frame where there is room for the rest of it. -/
theorem goOn_service {k : Task} (hu : (u.setTask .poll none).Service) (ha : u.serving = .poll)
    (h : goOn k u = .next t) (hd : k ≠ .drain)
    (hroom : ∀ e i thenArm, k = .putFrame e i thenArm → u.tx.count + (5 - i.val) ≤ u.params.capacity) : t.Service := by
  cases h
  rw [ha]
  exact { hu with
    inv := hu.inv.of_eq rfl rfl rfl
    noDrain := fun hk => hd (Option.some.inj hk)
    room := fun e i thenArm hk => hroom e i thenArm (Option.some.inj hk) }

theorem frameStored_service {thenArm : Bool} (hu : (u.setTask .poll none).Service) (ha : u.serving = .poll)
    (h : frameStored thenArm u = .next t) : t.Service := by
  cases thenArm with
  | true => exact goOn_service (u := u.respond _) (hu.respond _) ha h nofun nofun
  | false => exact finish_service hu ha h

/-! The primitives -/

theorem faStep_service (h : s.Service) (hp : faStep s = .ok (u, q)) : u.Service ∧ u.serving = s.serving := by
  have hinv := h.inv.move (faStep_move hp)
  rcases faStep_eq_ok hp with rfl | ⟨b, r, out, -, rfl⟩
  · exact ⟨h, rfl⟩
  · exact ⟨{ h with inv := hinv }, rfl⟩

/-- An idle pacer has no event outstanding, so arming it leaves exactly one. -/
theorem tpArm_service (h : s.Service) (hp : tpArm s = .ok (u, q)) : u.Service ∧ u.serving = s.serving := by
  have hinv := h.inv.move (tpArm_move hp)
  rcases tpArm_cases (s := s) with ⟨-, ha⟩ | ⟨hidle, ha⟩ <;> rw [ha] at hp <;> cases hp
  · exact ⟨h, rfl⟩
  · exact ⟨{ h with inv := hinv, timer := by simp [h.timer, hidle] }, rfl⟩

theorem rxPut_service {b : Byte} (h : s.Service) (hp : putByte .rx b s = .ok (u, q)) : u.Service := by
  have hinv := h.inv.move (putByte_move hp)
  rcases putByte_eq_ok hp with rfl | ⟨r, -, rfl⟩
  · exact h
  · exact { h with inv := hinv }

/-- Never more than one event is outstanding, so that the delivery of one leaves none. -/
theorem State.Service.eraseIdx_outstanding (h : s.Service) {k : Nat} (hk : k < s.outstanding.length) :
    s.outstanding.eraseIdx k = [] := by
  have hone : s.outstanding.length ≤ 1 := by rw [h.timer]; split <;> omega
  rw [← List.length_eq_zero_iff, List.length_eraseIdx_of_lt hk]
  omega

/-- The fire on the only event outstanding: the chain ends with none, or a byte leaves `tx` and one is asked for. -/
theorem tpFire_service (h : s.Service) (hp : tpFire { s with outstanding := [], serving := .tmr } = .ok (u, q)) : u.Service := by
  have hbefore : State.Inv { s with outstanding := [], serving := .tmr } := h.inv.of_eq rfl rfl rfl
  have hinv := hbefore.move (tpFire_move hp)
  rcases tpFire_cases hbefore.tx with ⟨-, hf⟩ | ⟨-, b, r, hf, -, hr, -⟩ <;> rw [hf] at hp <;> cases hp
  · exact { h with inv := hinv, timer := rfl }
  · have hcount : r.count ≤ s.tx.count := hr ▸ Nat.sub_le _ 1
    exact { h with
      inv := hinv
      timer := rfl
      room := fun e i thenArm hk => (Nat.add_le_add_right hcount _).trans (h.room e i thenArm hk) }

/-! Turns and operations -/

theorem tryGetFrameTurn_service (h : s.Service) (ha : s.serving = .poll) (ht : tryGetFrameTurn s = .next t) : t.Service := by
  unfold tryGetFrameTurn at ht
  split at ht
  · cases ht
  · rename_i u q hp
    obtain ⟨hu, hserving⟩ := faStep_service h hp
    rw [ha] at hserving
    split at ht
    · exact finish_service hu.freePoll hserving ht
    · split at ht
      · exact goOn_service hu.freePoll hserving ht nofun nofun
      · exact finish_service hu.freePoll hserving ht

theorem armTurn_service (h : s.Service) (ha : s.serving = .poll) (ht : armTurn s = .next t) : t.Service := by
  unfold armTurn at ht
  split at ht
  · cases ht
  · rename_i u q hp
    obtain ⟨hu, hserving⟩ := tpArm_service h hp
    exact finish_service hu.freePoll (hserving.trans ha) ht

/-- The reservation test is what keeps room for all five bytes (43 R161). -/
theorem reserveFrame_service {c p1 p2 p3 : Byte} {thenArm : Bool} (h : s.Service) (ha : s.serving = .poll)
    (ht : reserveFrame c p1 p2 p3 thenArm s = .next t) : t.Service := by
  unfold reserveFrame at ht
  split at ht
  · exact finish_service h.freePoll ha ht
  · rename_i hroom
    refine goOn_service h.freePoll ha ht nofun ?_
    rintro e i arm ⟨⟩
    exact Nat.not_lt.mp hroom

/-- A byte stored takes one of the cells kept for the frame and leaves the others to the bytes behind it. -/
theorem putFrameTurn_service {e : Frame5} {i : Fin 5} {thenArm : Bool} (h : s.Service) (ha : s.serving = .poll)
    (hk : s.pollTask = some (.putFrame e i thenArm)) (ht : putFrameTurn e i thenArm s = .next t) : t.Service := by
  have hroom := h.room e i thenArm hk
  obtain ⟨r, hw, hcount, -, hturn⟩ := putFrameTurn_room e i thenArm h.inv.tx (by omega)
  have hstored : (State.setTask { s with tx := r } .poll none).Service :=
    { h.freePoll with inv := ⟨h.inv.legal, h.inv.rx, hw⟩, room := nofun }
  rw [hturn] at ht
  split at ht
  · exact frameStored_service hstored ha ht
  · rename_i hi
    refine goOn_service hstored ha ht nofun ?_
    rintro e j arm ⟨⟩
    have hsucc : (i + 1).val = i.val + 1 := Fin.val_add_one_of_lt (n := 4) (Fin.lt_last_iff_ne_last.mpr hi)
    show r.count + _ ≤ s.params.capacity
    omega

theorem taskTurn_service {k : Task} (h : s.Service) (ha : s.serving = .poll) (hk : s.pollTask = some k) (hd : k ≠ .drain)
    (ht : taskTurn k s = .next t) : t.Service := by
  cases k with
  | tryGetFrame => exact tryGetFrameTurn_service h ha ht
  | putFrame e i thenArm => exact putFrameTurn_service h ha hk ht
  | arm => exact armTurn_service h ha ht
  | drain => exact absurd rfl hd

theorem pollOp_keeps_service {i : Instr} (h : s.Service) (ha : s.serving = .poll) (hi : PollOp i)
    (ht : exec i s = .next t) : t.Service := by
  cases hi with
  | faStep => exact complete_service (fun hp => (faStep_service h hp).1) ht
  | tryGetFrame => exact tryGetFrameTurn_service h ha ht
  | feEncode a b c d =>
    cases ht
    exact h.respond _
  | fePutFrame a b c d => exact reserveFrame_service h ha ht
  | tpArm => exact complete_service (fun hp => (tpArm_service h hp).1) ht

theorem State.ServiceStep.service {o : Host.Outcome State Fault Refusal} (h : s.Service) (hs : s.ServiceStep o)
    (ho : o = .next t) : t.Service := by
  cases hs with
  | idle => cases ho; exact h
  | turn hk hd => exact taskTurn_service (h.serve .poll) rfl hk hd ho
  | ask _ hi => exact pollOp_keeps_service (h.serve .poll) rfl hi ho
  | send _ c p1 p2 p3 => exact reserveFrame_service (h.serve .poll) rfl ho
  | receive b => exact complete_service (rxPut_service (h.serve .rxi)) ho
  | fire hk =>
    rw [h.eraseIdx_outstanding hk] at ho
    exact complete_service (tpFire_service h) ho
  | reserved a => cases ho; exact (h.serve a).respond _

end

/-- Settles O40: the state with the next input taken is in service, and every kind of step leads from there to a state in service. -/
theorem stepKeepsService : Obligations.StepKeepsService := by
  intro s t h ht
  obtain ⟨is, n, hservice, hstep⟩ := h.step_cases
  exact hstep.service hservice ht

end Sys2Proof.Machine
end

section
/-! PROOFS of 60_exceptions.md: no step and no run stops from a state of the invariant; what the events issue. -/

namespace Sys2Proof.Machine

/-! ### Progress (60 R205)

The simulation `step_alike` follows two states of the invariant through a step and shows that both answer a next state: a `PUT` or
a `GET` on a buffer in order never faults (`State.Twins.put`, `State.Twins.get`). A state is its own twin, so this is progress. -/

section
variable {s : State}

theorem State.SameView.refl (s : State) : s.SameView s := by constructor <;> rfl

theorem State.Inv.twins_self (h : s.Inv) : s.Twins s := ⟨h, h, .refl s⟩

theorem exists_step_of_inv (h : s.Inv) : ∃ t, step s = .next t := by
  obtain ⟨t, -, ht, -⟩ := step_alike h.twins_self
  exact ⟨t, ht⟩

/-- Progress and preservation, step after step. -/
theorem exists_run_of_inv (k : Nat) (h : s.Inv) : ∃ t, Host.Core.run Sys2Proof.core k s = .next t ∧ t.Inv := by
  induction k generalizing s with
  | zero => exact ⟨s, rfl, h⟩
  | succ k ih =>
    obtain ⟨u, hu⟩ := exists_step_of_inv h
    rw [run_succ hu]
    exact ih (step_inv h hu)

end

/-- Settles O4: a state that meets the invariant is simulated by itself. -/
theorem stepNeverStops : Obligations.StepNeverStops := fun _ => exists_step_of_inv

/-- Settles O5: the reset state meets the invariant, which does not read the inputs ahead or what the outside does later. -/
theorem noRunStops : Obligations.NoRunStops := fun _ _ _ k hp =>
  exists_run_of_inv k ((init_inv hp).of_eq rfl rfl rfl)

/-! ### What the events issue (60 R207, R208) -/

section
variable {s : State} {k : Nat}

theorem perform_rxEvent_some (b : Byte) : perform (.rxEvent (some b)) s = exec (.rxbPut b) { s with serving := .rxi } :=
  serve_ok (decode_encode (.rxbPut b))

/-- The delivery of an outstanding event takes it from the timer service before the fire. -/
theorem perform_timerEvent_outstanding (hk : k < s.outstanding.length) : perform (.timerEvent k) s =
    exec .tpFire { s with outstanding := s.outstanding.eraseIdx k, serving := .tmr } :=
  (if_pos hk).trans (serve_ok (decode_encode .tpFire))

theorem perform_timerEvent_none (hk : s.outstanding.length ≤ k) : perform (.timerEvent k) s = .next s :=
  if_neg (Nat.not_lt.mpr hk)

theorem waitsFor_eq_none {i : Input} {a : Agent} (hs : i.starter = some a) (ha : s.task a = none) : waitsFor i s = none := by
  simp [waitsFor, hs, ha]

end

/-- Settles O51: the agent of the event is free, so the event is performed. -/
theorem eventsIssueTheirOperation : Obligations.EventsIssueTheirOperation := by
  intro s rest hl
  refine ⟨fun b hi ha => ?_, fun hi ha => ?_, fun k hi ha hk => ?_, fun k hi ha hk => ?_⟩ <;>
    rw [step_perform hl hi (waitsFor_eq_none rfl ha)]
  · exact perform_rxEvent_some b
  · rfl
  · exact perform_timerEvent_outstanding hk
  · exact perform_timerEvent_none hk

end Sys2Proof.Machine
end

section
/-! PROOFS of 70_reset_and_hazards.md: `RESET`, the core that waits, how long `TRY_GET_FRAME` is under way, and who arms an idle
pacer in service. -/

namespace Sys2Proof.Machine

/-! ### `RESET` and the core that waits (70 R240, R243) -/

section
variable {s : State}

/-- The status reads the counts, the capacity and `tp.armed`, which `RESET` leaves as they are after reset. -/
theorem resetCore_status (s : State) : (resetCore s).status = (State.init s.params).status := rfl

theorem step_resetLine {rest : List Input} (hl : s.params.Legal) (hi : s.inputs = .resetLine :: rest) :
    step s = .next { resetCore s with inputs := rest } :=
  step_perform hl hi rfl

theorem inputs_eq_nil_of_supply (h : s.supply.inputs = []) : s.inputs = [] := by
  cases hi : s.inputs with
  | nil => rfl
  | cons i rest => cases (supply_of_inputs hi ▸ hi).symm.trans h

theorem step_waits (hl : s.params.Legal) (hfree : ∀ a, s.task a = none) (h : s.supply.inputs = []) :
    step s = .next s.supply := by
  rcases step_cases hl with ⟨-, -, hs⟩ | ⟨a, k, -, -, hk, -⟩ | ⟨i, rest, hi, -⟩
  · exact hs
  · cases (hfree a).symm.trans hk
  · cases h.symm.trans hi

end

/-- Settles O37: the operation and the reset input both answer `resetCore`. -/
theorem resetIsFourInits : Obligations.ResetIsFourInits :=
  ⟨by decide, fun s hl => ⟨resetCore s, freeWindow s.freeCount, rfl, fun _ hi => step_resetLine hl hi, rfl,
    (resetCore_status s).trans (init_status hl)⟩⟩

/-- Settles O53: with no agent busy only an input ahead is attended to, and a silent outside has none to draw. -/
theorem coreWaitsForOperations : Obligations.CoreWaitsForOperations := by
  intro s hl hp hr ht
  have hfree : ∀ a, s.task a = none := by rintro (_ | _ | _) <;> assumption
  refine ⟨fun hi hlater => ?_, fun h => ⟨step_waits hl hfree h, ?_⟩⟩
  · have hs := supply_of_silent hlater
    exact (step_waits hl hfree (hs.symm ▸ hi)).trans (congrArg _ hs)
  · have he := supply_eq s
    rwa [h, ← inputs_eq_nil_of_supply h] at he

/-! ### A receive event between two turns of `POLL` (60 R207) -/

section
variable {s : State} {rest : List Input}

theorem step_rxEvent_none (hl : s.params.Legal) (hi : s.inputs = .rxEvent none :: rest) (hr : s.rxiTask = none) :
    step s = .next { s with inputs := rest } :=
  step_perform hl hi (waitsFor_eq_none rfl hr)

theorem step_rxEvent_full {b : Byte} (hl : s.params.Legal) (hi : s.inputs = .rxEvent (some b) :: rest)
    (hr : s.rxiTask = none) (hfull : s.rx.count = s.params.capacity) :
    step s = .next ((s.taking .rxi rest).respond { cond := .bufferFull }) := by
  rw [step_perform hl hi (waitsFor_eq_none rfl hr), perform_rxEvent_some]
  exact exec_putOf_full (s := s.taking .rxi rest) (x := .rx) b hfull

theorem step_rxEvent_room {b : Byte} (h : s.Inv) (hi : s.inputs = .rxEvent (some b) :: rest) (hr : s.rxiTask = none)
    (hroom : s.rx.count ≠ s.params.capacity) :
    ∃ r : Ring, r.Wf s.params.capacity ∧ r.contents s.params.capacity = s.rx.contents s.params.capacity ++ [b] ∧
      step s = .next (State.respond { s.taking .rxi rest with rx := r } { ok := true }) := by
  obtain ⟨r, hput, hw, hc⟩ := exec_putOf_room (s := s.taking .rxi rest) (x := .rx) b h.rx hroom
  refine ⟨r, hw, hc, ?_⟩
  rw [step_perform h.legal hi (waitsFor_eq_none rfl hr), perform_rxEvent_some]
  exact hput

end

/-- A turn of `POLL`'s `TRY_GET_FRAME` that takes a byte and gives no frame. -/
theorem tryGetFrameTurn_poll_goesOn {u : State} {b : Byte} {bs : List Byte} (h : u.rx.Wf u.params.capacity)
    (hc : u.rx.contents u.params.capacity = b :: bs) (hf : (accept u.fa b).2.frames = []) (ha : u.serving = .poll) :
    tryGetFrameTurn u = .next { u with
      rx := u.rx.dropOldest u.params.capacity
      fa := (accept u.fa b).1
      pollTask := some .tryGetFrame } := by
  rw [tryGetFrameTurn_goesOn h hc hf]
  simp [setTask_eq, ha]

/-! ### With finitely many bytes `TRY_GET_FRAME` returns (70 R259) -/

/-- After at least one and at most `n` steps `POLL` has nothing under way and has just been answered. -/
def State.ReturnsWithin (n : Nat) (s : State) : Prop :=
  ∃ (k : Nat) (t : State) (q : Response), 0 < k ∧ k ≤ n ∧
    Host.Core.run Sys2Proof.core k s = .next t ∧ t.pollTask = none ∧ t.trace.getLast? = some (.response .poll q)

/-- `POLL`'s `TRY_GET_FRAME` alone under way, with the receive events `bytes` and nothing else still to come. -/
structure State.Receiving (s : State) (bytes : List (Option Byte)) : Prop where
  inv : s.Inv
  later : s.later = .silent
  pollTask : s.pollTask = some .tryGetFrame
  rxiFree : s.rxiTask = none
  tmrFree : s.tmrTask = none
  inputs : s.inputs = bytes.map .rxEvent

section
variable {s t u : State} {n m : Nat} {bytes : List (Option Byte)}

theorem State.ReturnsWithin.mono (h : s.ReturnsWithin n) (hnm : n ≤ m) : s.ReturnsWithin m := by
  obtain ⟨k, t, q, hpos, hk, hrun⟩ := h
  exact ⟨k, t, q, hpos, hk.trans hnm, hrun⟩

theorem State.ReturnsWithin.of_step (hs : step s = .next t) (h : t.ReturnsWithin n) : s.ReturnsWithin (n + 1) := by
  obtain ⟨k, v, q, -, hk, hrun, hv⟩ := h
  exact ⟨k + 1, v, q, Nat.succ_pos k, Nat.succ_le_succ hk, (run_succ hs).trans hrun, hv⟩

/-- A turn of `TRY_GET_FRAME` by `POLL` answers it, or takes a byte from `rx` and leaves another turn to take. -/
theorem tryGetFrameTurn_poll_cases (h : u.rx.Wf u.params.capacity) (ha : u.serving = .poll) :
    (∃ t q, tryGetFrameTurn u = .next t ∧ t.pollTask = none ∧ t.trace.getLast? = some (.response .poll q)) ∨
    ∃ (r : Ring) (fa : Assembler), r.Wf u.params.capacity ∧ r.count + 1 = u.rx.count ∧
      tryGetFrameTurn u = .next { u with rx := r, fa := fa, pollTask := some .tryGetFrame } := by
  have hlen := h.length_contents
  cases hc : u.rx.contents u.params.capacity with
  | nil =>
    have h0 : u.rx.count = 0 := by rw [← hlen, hc]; rfl
    exact .inl ⟨_, { cond := .bufferEmpty }, tryGetFrameTurn_empty h0, by simp [ha], by simp [ha]⟩
  | cons b bs =>
    obtain ⟨hw, hbs, -⟩ := faStep_oldest h hc
    have hcount : (u.rx.dropOldest u.params.capacity).count + 1 = u.rx.count := by
      rw [← hw.length_contents, hbs, ← hlen, hc, List.length_cons]
    cases hv : (accept u.fa b).2 with
    | frame f => exact .inl ⟨_, stepResponse (.frame f), tryGetFrameTurn_returns h hc hv, by simp [ha], by simp [ha]⟩
    | stored | mismatch =>
      exact .inr ⟨_, _, hw, hcount, tryGetFrameTurn_poll_goesOn h hc (by rw [hv]; rfl) ha⟩

/-- A step that is a turn of `POLL`'s `TRY_GET_FRAME`: a byte less in `rx` if the operation is still under way. -/
theorem returnsWithin_of_turn (hs : step s = tryGetFrameTurn u) (h : u.rx.Wf u.params.capacity) (ha : u.serving = .poll)
    (hnext : ∀ (r : Ring) (fa : Assembler), r.Wf u.params.capacity → r.count + 1 = u.rx.count →
      State.ReturnsWithin (r.count + n + 1) { u with rx := r, fa := fa, pollTask := some .tryGetFrame }) :
    s.ReturnsWithin (u.rx.count + n + 1) := by
  rcases tryGetFrameTurn_poll_cases h ha with ⟨t, q, ht, hanswered⟩ | ⟨r, fa, hw, hcount, ht⟩
  · exact ⟨1, t, q, Nat.one_pos, Nat.succ_pos _, run_succ (hs.trans ht), hanswered⟩
  · exact (State.ReturnsWithin.of_step (hs.trans ht) (hnext r fa hw hcount)).mono (by omega)

/-- With all bytes arrived each turn that is not the last leaves a byte less in `rx`. -/
theorem State.Receiving.returnsWithin_count (h : s.Receiving []) : s.ReturnsWithin (s.rx.count + 1) := by
  induction hn : s.rx.count using Nat.strong_induction_on generalizing s with
  | h c ih =>
    subst hn
    have hs := step_poll_alone h.inv.legal h.later h.inputs h.pollTask h.rxiFree h.tmrFree
    exact returnsWithin_of_turn (u := { s with serving := .poll }) (n := 0) hs h.inv.rx rfl fun r fa hw hcount =>
      ih r.count hcount.le { h with inv := ⟨h.inv.legal, hw, h.inv.tx⟩, pollTask := rfl } rfl

/-- An event ahead is one step and brings at most one byte, for which there is one turn more. -/
theorem State.Receiving.returnsWithin (h : s.Receiving bytes) : s.ReturnsWithin (s.rx.count + 2 * bytes.length + 1) := by
  induction bytes generalizing s with
  | nil => exact h.returnsWithin_count
  | cons b bytes ih =>
    have hlen : (b :: bytes).length = bytes.length + 1 := rfl
    cases b with
    | none =>
      have hnext : State.Receiving { s with inputs := bytes.map .rxEvent } bytes :=
        { h with inv := h.inv.of_eq rfl rfl rfl, inputs := rfl }
      exact ((ih hnext).of_step (step_rxEvent_none h.inv.legal h.inputs h.rxiFree)).mono (by simp only [hlen]; omega)
    | some b =>
      by_cases hfull : s.rx.count = s.params.capacity
      · have hnext : ((s.taking .rxi (bytes.map .rxEvent)).respond { cond := .bufferFull }).Receiving bytes :=
          { h with inv := h.inv.of_eq rfl rfl rfl, inputs := rfl }
        exact ((ih hnext).of_step (step_rxEvent_full h.inv.legal h.inputs h.rxiFree hfull)).mono
          (by simp only [hlen, respond_rx, State.taking]; omega)
      · obtain ⟨r, hw, hc, hs⟩ := step_rxEvent_room h.inv h.inputs h.rxiFree hfull
        have hcount : r.count = s.rx.count + 1 := by
          rw [← hw.length_contents, hc, List.length_append, h.inv.rx.length_contents, List.length_singleton]
        have hnext : State.Receiving (State.respond { s.taking .rxi (bytes.map .rxEvent) with rx := r } { ok := true }) bytes :=
          { h with inv := ⟨h.inv.legal, hw, h.inv.tx⟩, inputs := rfl }
        exact ((ih hnext).of_step hs).mono (by simp only [hlen, respond_rx, hcount]; omega)

end

/-- Settles O23: the first turn returns, or leaves the operation under way with a byte less in `rx`. -/
theorem tryGetFrameReturnsOnFiniteInput : Obligations.TryGetFrameReturnsOnFiniteInput := by
  intro s w bytes h hi hlater hd hp hr ht
  refine returnsWithin_of_turn (u := s.taking .poll (bytes.map .rxEvent)) (step_request h.legal hi hp hd) h.rx rfl
    fun r fa hw _ => ?_
  have hnext : State.Receiving { s.taking .poll (bytes.map .rxEvent) with
      rx := r
      fa := fa
      pollTask := some .tryGetFrame } bytes :=
    { inv := ⟨h.legal, hw, h.tx⟩, later := hlater, pollTask := rfl, rxiFree := hr, tmrFree := ht, inputs := rfl }
  exact hnext.returnsWithin

/-! ### Without end `TRY_GET_FRAME` need not return (70 R259, 93 U13) -/

/-- Every byte of the window that the automaton has still to read is `b`. -/
def Assembler.Only (fa : Assembler) (b : Byte) : Prop := ∀ x ∈ fa.liveWindow, x = b

/-- `POLL`'s `TRY_GET_FRAME` under way while `b` arrives as fast as it is taken: `rx` is empty and `b` about to arrive, or `b` is in
`rx` and `POLL` about to go on. -/
structure State.Endless (s : State) (b : Byte) : Prop where
  inv : s.Inv
  later : s.later = .again [.rxEvent (some b), .resume .poll]
  pollTask : s.pollTask = some .tryGetFrame
  rxiFree : s.rxiTask = none
  window : s.fa.Only b
  phase : (s.inputs = [] ∧ s.rx.contents s.params.capacity = []) ∨
    (s.inputs = [.resume .poll] ∧ s.rx.contents s.params.capacity = [b])

section
variable {fa : Assembler} {b : Byte} {s u : State}

theorem only_of_awaitCommand (h : fa.state = .awaitCommand) (b : Byte) : fa.Only b := by
  simp [Assembler.Only, liveWindow_of_awaitCommand h]

/-- Four times the same byte has checksum 0, so that `b` after them, not 0, is no frame. -/
theorem Assembler.Only.accept_frames (h : fa.Only b) (hb : b ≠ 0) : (accept fa b).2.frames = [] := by
  rw [Verdict.frames_eq_nil_iff]
  intro f hf
  obtain ⟨hlen, hcks⟩ := accept_frame_iff.mp ⟨f, hf⟩
  rw [List.eq_replicate_iff.mpr ⟨hlen, h⟩] at hcks
  exact hb (hcks.trans (by simp [List.replicate]))

theorem Assembler.Only.accept (h : fa.Only b) (hb : b ≠ 0) : (accept fa b).1.Only b := by
  intro x hx
  rcases accept_cases fa b with ⟨-, -, hlive⟩ | ⟨-, -, hv, -⟩ | ⟨-, -, -, -, hlive⟩
  · rw [hlive] at hx
    exact (List.mem_append.mp hx).elim (h x) List.eq_of_mem_singleton
  · exact absurd hv (Verdict.frames_eq_nil_iff.mp (h.accept_frames hb) _)
  · rw [hlive] at hx
    exact (List.mem_append.mp hx).elim (fun hx => h x (List.mem_of_mem_tail hx)) List.eq_of_mem_singleton

/-- The turn that takes `b` from `rx` gives no frame and finds nothing more to take. -/
theorem tryGetFrameTurn_endless (h : u.Inv) (hlater : u.later = .again [.rxEvent (some b), .resume .poll])
    (ha : u.serving = .poll) (hr : u.rxiTask = none) (hi : u.inputs = []) (hw : u.fa.Only b) (hb : b ≠ 0)
    (hc : u.rx.contents u.params.capacity = [b]) : ∃ t, tryGetFrameTurn u = .next t ∧ t.Endless b := by
  obtain ⟨hwf, hbs, -⟩ := faStep_oldest h.rx hc
  exact ⟨_, tryGetFrameTurn_poll_goesOn h.rx hc (hw.accept_frames hb) ha,
    ⟨h.legal, hwf, h.tx⟩, hlater, rfl, hr, hw.accept hb, .inl ⟨hi, hbs⟩⟩

/-- The inputs that come again count as listed. -/
theorem step_again {is : List Input} (hl : s.params.Legal) (hi : s.inputs = []) (hlater : s.later = .again is)
    (his : is ≠ []) : step s = step { s with inputs := is } := by
  obtain ⟨-, hagain, -⟩ := outsideGoesOnAfterTheList s hl hi
  rw [hagain is hlater]
  exact (step_listed (s := { s with inputs := is }) hl (.inl his)).symm

theorem State.Endless.exists_step (h : s.Endless b) (hb : b ≠ 0) : ∃ t, step s = .next t ∧ t.Endless b := by
  rcases h.phase with ⟨hi, hc⟩ | ⟨hi, hc⟩
  · have hempty : s.rx.count = 0 := by rw [← h.inv.rx.length_contents, hc]; rfl
    have hroom : s.rx.count ≠ s.params.capacity := hempty ▸ h.inv.rx.pos.ne
    obtain ⟨r, hw, hr, hs⟩ := step_rxEvent_room (s := { s with inputs := [.rxEvent (some b), .resume .poll] })
      (h.inv.of_eq rfl rfl rfl) rfl h.rxiFree hroom
    rw [hc] at hr
    exact ⟨_, (step_again h.inv.legal hi h.later (List.cons_ne_nil _ _)).trans hs,
      { h with inv := ⟨h.inv.legal, hw, h.inv.tx⟩, phase := .inr ⟨rfl, hr⟩ }⟩
  · rw [step_resume_busy h.inv.legal hi h.pollTask]
    exact tryGetFrameTurn_endless (h.inv.of_eq rfl rfl rfl) h.later rfl h.rxiFree rfl h.window hb hc

theorem State.Endless.exists_run (h : s.Endless b) (hb : b ≠ 0) (k : Nat) :
    ∃ t, Host.Core.run Sys2Proof.core k s = .next t ∧ t.Endless b := by
  induction k generalizing s with
  | zero => exact ⟨s, rfl, h⟩
  | succ k ih =>
    obtain ⟨u, hs, hu⟩ := h.exists_step hb
    rw [run_succ hs]
    exact ih hu

end

/-- Settles O24: the first turn leads into a family of states that every step keeps. -/
theorem tryGetFrameNeedNotReturn : Obligations.TryGetFrameNeedNotReturn := by
  intro s w b h hi hlater hd hp hr hfa hc hb k
  obtain ⟨u, hturn, hu⟩ := tryGetFrameTurn_endless (u := s.taking .poll []) (h.of_eq rfl rfl rfl) hlater rfl hr rfl
    (only_of_awaitCommand hfa b) hb hc
  obtain ⟨t, hrun, ht⟩ := hu.exists_run hb k
  exact ⟨t, (run_succ ((step_request h.legal hi hp hd).trans hturn)).trans hrun, ht.pollTask⟩

/-! ### Who arms an idle pacer (70 R258) -/

section
variable {s t u : State} {i : Instr} {k : Task} {w : CommandWord} {a : Agent}

theorem State.TurnEnds.armed (h : u.TurnEnds t) : t.armed = u.armed := by
  obtain ⟨k, out, rfl⟩ := h
  exact setTask_armed ..

/-- Only `TP_FIRE` and `TP_ARM` set `tp.armed` (10 R39). -/
theorem eq_tpFire_or_tpArm_of_arms (h : exec i s = .next t) (hs : s.armed = false) (ht : t.armed = true) :
    i = .tpFire ∨ i = .tpArm := by
  obtain ⟨hframe, -⟩ := operationsChangeOnlyTheirUnit i s t h
  cases i with
  | tpFire => exact .inl rfl
  | tpArm => exact .inr rfl
  | tpInit | reset =>
    cases h
    cases ht
  | tryGetFrame | fePutFrame =>
    rw [hframe] at ht
    cases hs.symm.trans ((setTask_armed ..).symm.trans ht)
  | rxbInit | rxbPut | rxbGet | txbInit | txbPut | txbGet | faInit | faStep | feEncode =>
    rw [hframe] at ht
    cases hs.symm.trans ht

/-- Of the turns but that of a `DRAIN` only the arming one sets `tp.armed`. -/
theorem eq_arm_of_taskTurn_arms (h : taskTurn k s = .next t) (hd : k ≠ .drain) (hs : s.armed = false)
    (ht : t.armed = true) : k = .arm := by
  cases k with
  | arm => rfl
  | drain => exact absurd rfl hd
  | tryGetFrame =>
    obtain ⟨u, q, hp, hu⟩ := tryGetFrameTurn_eq_next h
    rw [hu.armed] at ht
    rcases faStep_eq_ok hp with rfl | ⟨b, r, out, -, rfl⟩ <;> cases hs.symm.trans ht
  | putFrame e i thenArm =>
    obtain ⟨u, q, hp, hu⟩ := putFrameTurn_eq_next h
    rw [hu.armed] at ht
    rcases putByte_eq_ok hp with rfl | ⟨r, -, rfl⟩ <;> cases hs.symm.trans ht

/-- A command word that sets `tp.armed`, from an agent that keeps the conventions. -/
theorem serve_arms (hi : (Input.request a w).disciplined = true) (h : serve a w s = .next t) (hs : s.armed = false)
    (ht : t.armed = true) : a = .poll ∧ decode w = .ok .tpArm := by
  cases hd : decode w with
  | error e =>
    rw [serve_error hd] at h
    cases h
    cases hs.symm.trans ht
  | ok j =>
    rw [serve_ok hd] at h
    have hj := eq_tpFire_or_tpArm_of_arms h hs ht
    cases a with
    | poll =>
      rcases hj with rfl | rfl
      · cases pollOp_of_pollMayAsk hd hi
      · exact ⟨rfl, rfl⟩
    | rxi =>
      obtain ⟨b, rfl⟩ := eq_rxbPut_of_rxiMayAsk hd hi
      simp at hj
    | tmr => cases hi

/-- An input that sets `tp.armed` with no event outstanding is `POLL`'s `TP_ARM`. -/
theorem perform_arms {i : Input} (hi : i.disciplined = true) (hr : ∀ a, i = .resume a → s.task a = none)
    (hout : s.outstanding = []) (h : perform i s = .next t) (hs : s.armed = false) (ht : t.armed = true) :
    ∃ w, i = .request .poll w ∧ decode w = .ok .tpArm := by
  cases i with
  | request a w =>
    obtain ⟨rfl, hd⟩ := serve_arms hi h hs ht
    exact ⟨w, rfl, hd⟩
  | rxEvent b =>
    cases b with
    | none =>
      cases h
      cases hs.symm.trans ht
    | some b =>
      rw [perform_rxEvent_some] at h
      rcases eq_tpFire_or_tpArm_of_arms h hs ht with hb | hb <;> cases hb
  | timerEvent k =>
    rw [perform_timerEvent_none (by simp [hout])] at h
    cases h
    cases hs.symm.trans ht
  | resume a =>
    simp only [perform, resume, hr a rfl] at h
    cases h
    cases hs.symm.trans ht
  | send a c p1 p2 p3 =>
    have hu := (reserveFrame_turnEnds h).armed
    cases hs.symm.trans (hu.symm.trans ht)
  | resetLine | drain => cases hi

end

/-- Settles O42: an idle pacer has no event outstanding, so of what a step in service can do only `POLL`'s arming sets `tp.armed`. -/
theorem pacerStaysIdleUntilArmed : Obligations.PacerStaysIdleUntilArmed := by
  intro s t h hidle ht harmed
  have hout : s.outstanding = [] := by simpa [hidle] using h.timer
  rcases step_cases h.inv.legal with ⟨-, -, hs⟩ | ⟨a, k, rest, n, hk, -, hs⟩ | ⟨i, rest, hi, hw, hr, hs⟩ <;> rw [hs] at ht
  · cases ht
    rw [supply_eq] at harmed
    cases hidle.symm.trans harmed
  · obtain rfl := h.eq_poll hk
    have hd : k ≠ .drain := fun hd => h.noDrain (hd ▸ hk)
    exact .inl (eq_arm_of_taskTurn_arms ht hd hidle harmed ▸ hk)
  · have hdisc := h.supply_disciplined (hi ▸ List.mem_cons_self)
    obtain ⟨w, rfl, hdec⟩ := perform_arms (s := s.ahead rest s.supply.freeCount) hdisc hr hout ht hidle harmed
    exact .inr ⟨task_eq_none_of_waitsFor (a := .poll) rfl hw, w, rest, hi, hdec⟩

end Sys2Proof.Machine
end
